-- ==== Sys2Proof/Word.lean ====
section
/-!
DEFINITION. The words of the block and the two bank names (spec/00_scope.md R8, R10: every value is unsigned, bit 0 is
the least significant bit).
-/

namespace Sys2Proof

/-- One input byte, and one RegisterValue (VAL_W = 8). -/
abbrev Byte := BitVec 8

/-- A frame word `W` (WORD_W = 16). -/
abbrev Word := BitVec 16

/-- An address inside a bank (ADDR_W = 4). -/
abbrev Addr := BitVec 4

/-- A register-file index (IDX_W = 5); every index is valid (R29). -/
abbrev Index := BitVec 5

/-- A hexadecimal digit's value. -/
abbrev Digit := BitVec 4

/-- The two register groups, "exactly two variants, `A` and `B`" (R8). -/
inductive Bank where
  | a
  | b
deriving DecidableEq, Repr

end Sys2Proof
end

