-- ==== Sys2Proof/Config.lean ====
section
/-!
DEFINITION. What the spec leaves free. Each constant has no body: nothing can evaluate it, so a statement proved of the
model holds for every choice the spec admits.
-/

namespace Sys2Proof

/-- The draw `k` of ReadEntry (spec/20_memory.md R43: "a draw, unconstrained within the range"), as a function of the
number of the draw. The read reduces it into the admitted range (`pickPos`). Free value, log entry 4. -/
opaque Config.readDraw : Nat → Nat

/-- Which of the entries a SNAPSHOT has not read yet it reads next (spec/42_host_ports.md R93: "in an order the step
relation leaves free"), as a function of the number of the draw. Free value, log entry 5. -/
opaque Config.orderDraw : Nat → Nat

end Sys2Proof
end

