-- ==== Sys2Proof/Syntax.lean ====
section
/-!
DEFINITION. The instructions: one constructor for each of the 23 rows of spec/opcode_table.json, with the operands the
row's rule names.
-/

namespace Sys2Proof

/-- The instructions of the block. A frame instruction carries its decoded operands, a byte instruction the bits its row
leaves open, a reader operation its reader number. -/
inductive Instr where
  /-- Row WRA (R84): write value `v` to bank A address `a`. -/
  | wra (a : Addr) (v : Byte)
  /-- Row WRB (R85): write value `v` to bank B address `a`. -/
  | wrb (a : Addr) (v : Byte)
  /-- Row HEX.0-7 (R74): byte `00110ddd`. -/
  | hex07 (d : BitVec 3)
  /-- Row HEX.8-9 (R74): byte `0011100d`. -/
  | hex89 (d : BitVec 1)
  /-- Row HEX.A (R74): byte 0x41. -/
  | hexUpA
  /-- Row HEX.B-C (R74): byte `0100001d`. -/
  | hexUpBC (d : BitVec 1)
  /-- Row HEX.D-E (R74): byte `0100010d`. -/
  | hexUpDE (d : BitVec 1)
  /-- Row HEX.F (R74): byte 0x46. -/
  | hexUpF
  /-- Row HEX.a (R74): byte 0x61. -/
  | hexLoA
  /-- Row HEX.b-c (R74): byte `0110001d`. -/
  | hexLoBC (d : BitVec 1)
  /-- Row HEX.d-e (R74): byte `0110010d`. -/
  | hexLoDE (d : BitVec 1)
  /-- Row HEX.f (R74): byte 0x66. -/
  | hexLoF
  /-- Row CR (R75): byte 0x0D. -/
  | cr
  /-- Row LF (R77): byte 0x0A, which ends the line. -/
  | lf
  /-- Row OTHER (R76): any byte of no other row. -/
  | other (b : Byte)
  /-- Row GET (R92): reader `r` reads entry `i`. -/
  | get (r : Nat) (i : Index)
  /-- Row SNAPSHOT (R93): reader `r` reads all 32 entries. -/
  | snapshot (r : Nat)
  /-- Row STATUS (R94). -/
  | status
  /-- Row START (R95). -/
  | start
  /-- Row CANCEL (R96). -/
  | cancel
  /-- Row CANCEL_TAKE (R97), the engine's internal step. -/
  | cancelTake
  /-- Row TRANSPORT_FAULT (R105). -/
  | transportFault
  /-- Row RESET (R118). -/
  | reset
deriving DecidableEq, Repr

end Sys2Proof
end

