-- ==== Sys2Proof/WellFormed.lean ====
section
/-!
DEFINITION. Which terms of `Instr` are instructions of the block. The widths of the operands are in their types; two
checks are left: OTHER takes none of the bytes another row takes, and a reader operation comes from a reader that exists.
-/

namespace Sys2Proof

/-- The 232 byte values of class OTHER, read off the table of spec/30_encoding.md R50: no digit, no upper or lower case
letter up to F, no CR, no LF. -/
def isOtherByte (b : Byte) : Bool :=
  !((0x30#8 ≤ b && b ≤ 0x39#8) || (0x41#8 ≤ b && b ≤ 0x46#8) || (0x61#8 ≤ b && b ≤ 0x66#8)
    || b == 0x0D#8 || b == 0x0A#8)

/-- A term is well formed for a block with `numReaders` readers (the open parameter NumReaders, R9, which "the model
takes as an argument"): OTHER's byte belongs to no other row (R67), and a reader number is in 0..NumReaders-1 (R91). -/
def Instr.WellFormed (numReaders : Nat) : Instr → Bool
  | .other b => isOtherByte b
  | .get r _ => decide (r < numReaders)
  | .snapshot r => decide (r < numReaders)
  | .wra _ _ | .wrb _ _ | .hex07 _ | .hex89 _ | .hexUpA | .hexUpBC _ | .hexUpDE _ | .hexUpF | .hexLoA | .hexLoBC _
  | .hexLoDE _ | .hexLoF | .cr | .lf | .status | .start | .cancel | .cancelTake | .transportFault | .reset => true

end Sys2Proof
end

