-- ==== Sys2Proof/Decode.lean ====
section
/-!
DEFINITION. Decoding at the block's two levels, and the encoder (spec/30_encoding.md). A byte selects a BYTE8 row by its
class; the 16-bit word a valid line spells selects WRA or WRB. A line is judged whole here, by the rule of R53; the
machine judges it byte by byte (Machine/Flags.lean), and that the two agree is a statement (R78).
-/

namespace Sys2Proof

/-! ### Input bytes -/

/-- `hexval(b)`: the digit value of a HEX byte, none for any other byte (R51). -/
def hexval (b : Byte) : Option Digit :=
  if 0x30#8 ≤ b ∧ b ≤ 0x39#8 then some ((b - 0x30#8).setWidth 4)
  else if 0x41#8 ≤ b ∧ b ≤ 0x46#8 then some ((b - 0x37#8).setWidth 4)
  else if 0x61#8 ≤ b ∧ b ≤ 0x66#8 then some ((b - 0x57#8).setWidth 4)
  else none

/-- The four classes of an input byte (R50). -/
inductive ByteClass where
  | hex
  | cr
  | lf
  | other
deriving DecidableEq, Repr

/-- The class of a byte (R50). -/
def byteClass (b : Byte) : ByteClass :=
  if (hexval b).isSome then .hex
  else if b = 0x0D#8 then .cr
  else if b = 0x0A#8 then .lf
  else .other

/-- The BYTE8 row a byte matches, by mask and match (R67); OTHER only when no other row matches. Total: every byte has a
row. -/
def decodeByte (b : Byte) : Instr :=
  if b &&& 0xF8#8 = 0x30#8 then .hex07 (b.extractLsb' 0 3)
  else if b &&& 0xFE#8 = 0x38#8 then .hex89 (b.extractLsb' 0 1)
  else if b = 0x41#8 then .hexUpA
  else if b &&& 0xFE#8 = 0x42#8 then .hexUpBC (b.extractLsb' 0 1)
  else if b &&& 0xFE#8 = 0x44#8 then .hexUpDE (b.extractLsb' 0 1)
  else if b = 0x46#8 then .hexUpF
  else if b = 0x61#8 then .hexLoA
  else if b &&& 0xFE#8 = 0x62#8 then .hexLoBC (b.extractLsb' 0 1)
  else if b &&& 0xFE#8 = 0x64#8 then .hexLoDE (b.extractLsb' 0 1)
  else if b = 0x66#8 then .hexLoF
  else if b = 0x0D#8 then .cr
  else if b = 0x0A#8 then .lf
  else .other b

/-! ### The frame word -/

/-- `rev_4`: `rev_4(v)[j] = v[3-j]` (R11). -/
def rev4 (v : BitVec 4) : BitVec 4 := v.reverse

/-- `rev_8`: `rev_8(v)[j] = v[7-j]` (R11). -/
def rev8 (v : BitVec 8) : BitVec 8 := v.reverse

/-- `bank(W)`: bit 12, 1 for A and 0 for B (R58). -/
def frameBank (w : Word) : Bank := if w.getLsbD 12 then .a else .b

/-- `addr(W) = rev_4(W[11:8])` (R59). -/
def frameAddr (w : Word) : Addr := rev4 (w.extractLsb' 8 4)

/-- `val(W) = rev_8(W[7:0])` (R60). -/
def frameVal (w : Word) : Byte := rev8 (w.extractLsb' 0 8)

/-- The frame instruction a word is: WRA or WRB by bit 12 alone (R65, R82). Total: no word is illegal; bits 15:13 select
nothing (R61). -/
def decodeFrame (w : Word) : Instr :=
  match frameBank w with
  | .a => .wra (frameAddr w) (frameVal w)
  | .b => .wrb (frameAddr w) (frameVal w)

/-- `bank_bit(A) = 1`, `bank_bit(B) = 0` (R14). -/
def bankBit : Bank → BitVec 1
  | .a => 1#1
  | .b => 0#1

/-- `Enc(bank, address, value)`, the canonical word, zero in bits 15:13 (R64). -/
def encodeFrame (bank : Bank) (a : Addr) (v : Byte) : Word := 0#3 ++ bankBit bank ++ rev4 a ++ rev8 v

/-! ### Lines -/

/-- Why a line is malformed (spec/60_exceptions.md R104). -/
inductive MalformedCause where
  /-- The body holds a byte that is no hex digit, or a CR that is not the last byte before LF. -/
  | badChar
  /-- The body is empty. -/
  | empty
  /-- The body's value exceeds 0xFFFF. -/
  | overflow
deriving DecidableEq, Repr

/-- What a whole line is: a frame word, or malformed for a cause. -/
inductive Verdict where
  | frame (w : Word)
  | malformed (c : MalformedCause)
deriving DecidableEq, Repr

/-- The body of a line given without its LF: one CR just before the LF is stripped with it (R52). -/
def lineBody (line : List Byte) : List Byte :=
  if line.getLast? = some 0x0D#8 then line.dropLast else line

/-- The value of a body of hex digits, the first byte most significant: the sum of `hexval(b_j) * 16^(n-1-j)` (R54). -/
def bodyValue : List Byte → Nat
  | [] => 0
  | b :: bs => ((hexval b).getD 0#4).toNat * 16 ^ bs.length + bodyValue bs

/-- The decode of a whole line, given without its LF: valid exactly when the body is non-empty, all hex digits, and of a
value at most 0xFFFF (R53); otherwise rejected with its cause, in the order empty, then non-hex, then value (R104). -/
def decodeLine (line : List Byte) : Verdict :=
  if lineBody line = [] then .malformed .empty
  else if (lineBody line).any (fun b => (hexval b).isNone) then .malformed .badChar
  else if 0xFFFF < bodyValue (lineBody line) then .malformed .overflow
  else .frame (BitVec.ofNat 16 (bodyValue (lineBody line)))

/-- The upper-case ASCII character of a digit (R50). -/
def digitChar (d : Digit) : Byte := if d < 10#4 then d.setWidth 8 + 0x30#8 else d.setWidth 8 + 0x37#8

/-- The four upper-case hex digits of a word, most significant first (R69). -/
def wordDigits (w : Word) : List Byte :=
  [digitChar (w.extractLsb' 12 4), digitChar (w.extractLsb' 8 4), digitChar (w.extractLsb' 4 4),
    digitChar (w.extractLsb' 0 4)]

/-- The canonical line of a word as it is sent: its four digits, CR, LF, 6 bytes (R69). -/
def canonicalLine (w : Word) : List Byte := wordDigits w ++ [0x0D#8, 0x0A#8]

/-! ### Formats -/

/-- The operations of a reader port, format PORT (R68). -/
inductive PortOp where
  | get (r : Nat) (i : Index)
  | snapshot (r : Nat)
  | status
deriving DecidableEq, Repr

/-- The event inputs, format EVENT (R68). -/
inductive EventIn where
  | start
  | cancel
  | transportFault
  | reset
deriving DecidableEq, Repr

/-- The five formats of spec/opcode_table.json, each with what the block receives of an instruction in it. The port and
control operations "have no bit encoding inside the data stream": each is an input of its own (R68). -/
inductive Encoding where
  | byte8 (b : Byte)
  | frame16 (w : Word)
  | port (p : PortOp)
  | event (e : EventIn)
  /-- CANCEL_TAKE, a step with no input at all. -/
  | internal
deriving DecidableEq, Repr

/-- The instruction a reader port receives. -/
def decodePort : PortOp → Instr
  | .get r i => .get r i
  | .snapshot r => .snapshot r
  | .status => .status

/-- The instruction an event input stands for. -/
def decodeEvent : EventIn → Instr
  | .start => .start
  | .cancel => .cancel
  | .transportFault => .transportFault
  | .reset => .reset

/-- Decode in every format. Total: nothing the block can receive is an illegal encoding; the one rejection there is, a
malformed line, is at the line level (R66, `decodeLine`). -/
def decode : Encoding → Instr
  | .byte8 b => decodeByte b
  | .frame16 w => decodeFrame w
  | .port p => decodePort p
  | .event e => decodeEvent e
  | .internal => .cancelTake

/-- The encoder, from the encodings of spec/opcode_table.json; a frame instruction's is its canonical word (R64). -/
def encode : Instr → Encoding
  | .wra a v => .frame16 (encodeFrame .a a v)
  | .wrb a v => .frame16 (encodeFrame .b a v)
  | .hex07 d => .byte8 (0b00110#5 ++ d)
  | .hex89 d => .byte8 (0b0011100#7 ++ d)
  | .hexUpA => .byte8 0x41#8
  | .hexUpBC d => .byte8 (0b0100001#7 ++ d)
  | .hexUpDE d => .byte8 (0b0100010#7 ++ d)
  | .hexUpF => .byte8 0x46#8
  | .hexLoA => .byte8 0x61#8
  | .hexLoBC d => .byte8 (0b0110001#7 ++ d)
  | .hexLoDE d => .byte8 (0b0110010#7 ++ d)
  | .hexLoF => .byte8 0x66#8
  | .cr => .byte8 0x0D#8
  | .lf => .byte8 0x0A#8
  | .other b => .byte8 b
  | .get r i => .port (.get r i)
  | .snapshot r => .port (.snapshot r)
  | .status => .port .status
  | .start => .event .start
  | .cancel => .event .cancel
  | .cancelTake => .internal
  | .transportFault => .event .transportFault
  | .reset => .event .reset

/-- A row's mask and match, as spec/opcode_table.json gives them. -/
structure Row where
  mask : Nat
  value : Nat
deriving DecidableEq, Repr

/-- The mask and match of an instruction's row; none for the nine rows that have no bits in the data stream. -/
def Instr.row : Instr → Option Row
  | .wra _ _ => some ⟨0x1000, 0x1000⟩
  | .wrb _ _ => some ⟨0x1000, 0x0000⟩
  | .hex07 _ => some ⟨0xF8, 0x30⟩
  | .hex89 _ => some ⟨0xFE, 0x38⟩
  | .hexUpA => some ⟨0xFF, 0x41⟩
  | .hexUpBC _ => some ⟨0xFE, 0x42⟩
  | .hexUpDE _ => some ⟨0xFE, 0x44⟩
  | .hexUpF => some ⟨0xFF, 0x46⟩
  | .hexLoA => some ⟨0xFF, 0x61⟩
  | .hexLoBC _ => some ⟨0xFE, 0x62⟩
  | .hexLoDE _ => some ⟨0xFE, 0x64⟩
  | .hexLoF => some ⟨0xFF, 0x66⟩
  | .cr => some ⟨0xFF, 0x0D⟩
  | .lf => some ⟨0xFF, 0x0A⟩
  | .other _ => some ⟨0x00, 0x00⟩
  | .get _ _ | .snapshot _ | .status | .start | .cancel | .cancelTake | .transportFault | .reset => none

/-- The bits of an encoding that stand in the data stream, as one number. -/
def Encoding.bits : Encoding → Option Nat
  | .byte8 b => some b.toNat
  | .frame16 w => some w.toNat
  | .port _ | .event _ | .internal => none

/-- The decoder on a row's bits numbered as spec/opcode_table.json numbers them: 8 bits are an input byte (BYTE8), 16 bits
a frame word (FRAME16). The other rows have no bits in the data stream (R68), so no number of bits selects them. -/
def decodeTableWord (nbits w : Nat) : Option Instr :=
  if nbits = 8 then some (decodeByte (BitVec.ofNat 8 w))
  else if nbits = 16 then some (decodeFrame (BitVec.ofNat 16 w))
  else none

end Sys2Proof
end

