-- ==== Sys2Proof/Machine/State.lean ====
section
/-!
DEFINITION. The state of the block and of the agents around it, as plain data (spec/10_state.md), the reasons a step can
stop, and the state after reset (R27). What is computed from the state (the logs, the register file, STATUS) is in
Machine/Ops.lean.
-/

namespace Sys2Proof.Machine

/-- The run state `S.rs` (R21). -/
inductive RunState where
  /-- Not parsing: at reset, and after a taken cancellation. -/
  | stopped
  /-- Parsing, at a line start. -/
  | idle
  /-- Parsing, inside a line. -/
  | inLine
  /-- Not parsing, because of a TransportFault. -/
  | faulted
deriving DecidableEq, Repr

/-- The hidden line-parser state (R22). -/
structure Line where
  /-- The low 16 bits of the hex value of the digits seen so far. -/
  acc : Word
  /-- At least one hex digit has been seen in this line. -/
  nz : Bool
  /-- Sticky: the digits seen so far spell a value greater than 0xFFFF. -/
  ovf : Bool
  /-- Sticky: the line holds a byte that makes it malformed whatever follows. -/
  bad : Bool
  /-- The last byte consumed in this line was CR. -/
  crp : Bool
deriving DecidableEq, Repr

/-- The clear value of every line-parser field (R22). -/
def Line.clear : Line := { acc := 0#16, nz := false, ovf := false, bad := false, crp := false }

/-- The two error kinds (R101). -/
inductive ErrorKind where
  /-- Raised by the LF step of a malformed line, with its sub-cause (R103, R104). -/
  | malformedFrame (cause : MalformedCause)
  /-- Raised by the transport's event (R105). -/
  | transportFault
deriving DecidableEq, Repr

/-- One move of one agent (R91): the plain data that says who acts next. Log entry 1. -/
inductive Move where
  /-- The transport offers one more byte. -/
  | offer (b : Byte)
  /-- The engine takes its enabled step, or holds. -/
  | engine
  /-- A reader (or, for STATUS, any agent) uses a port. -/
  | port (p : PortOp)
  /-- The host controller's START, CANCEL or RESET, or the transport's TRANSPORT_FAULT. -/
  | event (e : EventIn)
deriving DecidableEq, Repr

/-- One answer of the block at a reader port. Log entry 8. -/
inductive Reply where
  /-- The value one ReadEntry returned to reader `r` for entry `i` (R43): a GET's answer, or one of a SNAPSHOT's reads. -/
  | entry (r : Nat) (i : Index) (v : Byte)
  /-- The table T a SNAPSHOT returned to reader `r` (R93). -/
  | table (r : Nat) (t : Vector Byte 32)
  /-- The word a STATUS read returned (R94). -/
  | status (v : Byte)
deriving DecidableEq, Repr

/-- Why the machine stops with a fault. It has NO constructor: the spec's two error kinds have a next state each (R103,
R105; `ErrorKind`), "no other error kinds exist", and no step of the block is undefined. Log entry 15. -/
inductive Fault where
deriving DecidableEq, Repr

/-- Why a step has no meaning. -/
inductive Refusal where
  /-- Raised by no arm of `exec` as it stands: an instruction the model has no meaning for yet. Safe: the machine stops. -/
  | notModelled (mnemonic : String)
deriving DecidableEq, Repr

/-- The whole machine. The first five fields are the block's own state; `stream` and `moves` are what the agents around
it do next; `snaps` and `replies` belong to the readers; `draws` counts the free draws. -/
structure State where
  /-- `Log[i]` without its first element, which is always the initial 0 (R18). Log entry 9. -/
  writes : Vector (List Byte) 32
  /-- `Seen[r][i]` at key `32 r + i`, a canonical sparse table of default 0 (R19). -/
  seen : List (Nat × Nat)
  /-- `S.rs` (R21). -/
  rs : RunState
  /-- `S.acc`, `S.nz`, `S.ovf`, `S.bad`, `S.crp` (R22). -/
  line : Line
  /-- `S.cp` (R24). -/
  cp : Bool
  /-- The bytes the transport offers and the engine has not consumed, in stream order (R71). -/
  stream : List Byte
  /-- The agents' next moves, the next one first. When empty, the engine moves. Log entries 1 and 2. -/
  moves : List Move
  /-- Per reader, the entries its SNAPSHOT in progress has read (the T of R93), a canonical sparse table whose default is
  a table with nothing read. One for each reader, so no reader has two SNAPSHOTs in progress. Log entries 6 and 23. -/
  snaps : List (Nat × Vector (Option Byte) 32)
  /-- What the reader ports have answered, newest first. Log entry 8. -/
  replies : List Reply
  /-- How many free draws have been made. Log entries 4 and 5. -/
  draws : Nat
deriving DecidableEq, Repr

/-- The machine right after reset (R27, R118): every log `[0]`, every watermark 0, STOPPED, no cancel pending, the line
state clear. The agents around the block have done nothing yet (log entry 13). -/
def State.reset : State where
  writes := Vector.replicate 32 []
  seen := []
  rs := .stopped
  line := Line.clear
  cp := false
  stream := []
  moves := []
  snaps := []
  replies := []
  draws := 0

end Sys2Proof.Machine
end

