-- ==== Sys2Proof/Machine/Ops.lean ====
section
/-!
DEFINITION. The named operations over the state: the sparse tables, the register file and its logs, ReadEntry, STATUS, the
enabling conditions, raising an error and resuming from one.
-/

namespace Sys2Proof.Machine

/-! ### Sparse tables

A list of (key, value) pairs in one canonical form: keys strictly rising, no entry at the default value `d`. -/

/-- The value at a key; an unlisted key reads as `d`. -/
def Table.get {α : Type} (d : α) : List (Nat × α) → Nat → α
  | [], _ => d
  | e :: t, k => if e.1 = k then e.2 else Table.get d t k

/-- The table with `v` at key `k`. Writing the default removes the entry, so the canonical form is kept. -/
def Table.set {α : Type} [DecidableEq α] (d : α) : List (Nat × α) → Nat → α → List (Nat × α)
  | [], k, v => if v = d then [] else [(k, v)]
  | e :: t, k, v =>
    if k < e.1 then (if v = d then e :: t else (k, v) :: e :: t)
    else if k = e.1 then (if v = d then t else (k, v) :: t)
    else e :: Table.set d t k v

/-- Every key of the table is above `n`. -/
def Table.above {α : Type} (n : Nat) (t : List (Nat × α)) : Bool := t.all fun e => decide (n < e.1)

/-- The canonical form: keys strictly rising, no entry at the default. -/
def Table.wf {α : Type} [DecidableEq α] (d : α) : List (Nat × α) → Bool
  | [] => true
  | e :: t => decide (e.2 ≠ d) && Table.above e.1 t && Table.wf d t

/-! ### The register file and its logs -/

/-- `idx(bank, address) = {bank_bit, address}` (R14). -/
def idx (bank : Bank) (a : Addr) : Index := bankBit bank ++ a

/-- What was appended to `Log[i]` after its initial 0. -/
def State.written (s : State) (i : Index) : List Byte := s.writes[i.toNat]'(by have := i.isLt; omega)

/-- `Log[i]`: the initial 0, then every value written to entry `i`, in write order (R18). Never empty. -/
def State.log (s : State) (i : Index) : List Byte := 0#8 :: s.written i

/-- `RF[i] = last(Log[i])` (R18). -/
def State.rf (s : State) (i : Index) : Byte := (s.written i).getLast?.getD 0#8

/-- `x[i] <- v`: the engine's write of one entry, which appends to the entry's log even when the value is unchanged (R12,
R18, D25). -/
def State.writeEntry (i : Index) (v : Byte) (s : State) : State :=
  { s with writes := s.writes.set i.toNat (s.written i ++ [v]) (by have := i.isLt; omega) }

/-! ### Readers -/

/-- The key of `Seen[r][i]` in the watermark table. -/
def seenKey (r : Nat) (i : Index) : Nat := 32 * r + i.toNat

/-- `Seen[r][i]` (R19). -/
def State.seenAt (s : State) (r : Nat) (i : Index) : Nat := Table.get 0 s.seen (seenKey r i)

/-- The draw of a log position from an unconstrained number `x`: some `k` with `lo <= k <= len - 1`, and every such `k`
for some `x` (R43). With the watermark at or past the end, which no run reaches, the newest position (log entry 10). -/
def pickPos (x lo len : Nat) : Nat := if lo < len then lo + x % (len - lo) else len - 1

/-- `ReadEntry(r, i)` of R43 with the draw `k` given: the watermark becomes `k`, the value is `Log[i][k]`, and the reader
has its answer. -/
def State.readEntryAt (r : Nat) (i : Index) (k : Nat) (s : State) : State :=
  { s with
    seen := Table.set 0 s.seen (seenKey r i) k
    replies := .entry r i ((s.log i).getD k 0#8) :: s.replies }

/-- The draw the next ReadEntry of reader `r` on entry `i` makes: a free value in the admitted range. -/
def State.nextPos (s : State) (r : Nat) (i : Index) : Nat :=
  pickPos (Config.readDraw s.draws) (s.seenAt r i) (s.log i).length

/-- `ReadEntry(r, i)` (R43): one read with a fresh free draw. -/
def State.readEntry (r : Nat) (i : Index) (s : State) : State :=
  { s.readEntryAt r i (s.nextPos r i) with draws := s.draws + 1 }

/-- The value the next ReadEntry of reader `r` on entry `i` returns (R43). -/
def State.readValue (s : State) (r : Nat) (i : Index) : Byte := (s.log i).getD (s.nextPos r i) 0#8

/-- The table of a SNAPSHOT that has read nothing yet. -/
def noReads : Vector (Option Byte) 32 := Vector.replicate 32 none

/-- What reader `r`'s SNAPSHOT in progress has read (R93). -/
def State.snapOf (s : State) (r : Nat) : Vector (Option Byte) 32 := Table.get noReads s.snaps r

/-- The entry at an index of a snapshot's table. -/
def snapGet (t : Vector (Option Byte) 32) (i : Index) : Option Byte := t[i.toNat]'(by have := i.isLt; omega)

/-- The table with one more entry read. -/
def snapSet (t : Vector (Option Byte) 32) (i : Index) (v : Byte) : Vector (Option Byte) 32 :=
  t.set i.toNat (some v) (by have := i.isLt; omega)

/-- Every index, 0 to 31. -/
def allIndices : List Index := (List.range 32).map (BitVec.ofNat 5)

/-- The entries a snapshot has not read yet, in index order. -/
def unread (t : Vector (Option Byte) 32) : List Index := allIndices.filter fun i => (snapGet t i).isNone

/-- The entry the next read of a snapshot takes: any one not read yet, by a free draw (R93: "in an order the step relation
leaves free"). -/
def State.nextIndex (s : State) (r : Nat) : Index :=
  let left := unread (s.snapOf r)
  left.getD (Config.orderDraw s.draws % left.length) 0#5

/-- The value a snapshot read for an entry; 0 where it has read none. -/
def snapValue (t : Vector (Option Byte) 32) (i : Index) : Byte := (snapGet t i).getD 0#8

/-- The 32 values of a snapshot's table. -/
def snapTable (t : Vector (Option Byte) 32) : Vector Byte 32 := t.map fun v => v.getD 0#8

/-- Keep reader `r`'s snapshot table; when its last entry has been read, hand T to the reader and end the SNAPSHOT (R93). -/
def State.storeSnap (r : Nat) (t : Vector (Option Byte) 32) (s : State) : State :=
  if unread t = [] then
    { s with snaps := Table.set noReads s.snaps r noReads, replies := .table r (snapTable t) :: s.replies }
  else { s with snaps := Table.set noReads s.snaps r t }

/-- One reader step of a SNAPSHOT: one ReadEntry of an entry not read yet (R93, R44).
DESIGN CHOICE, log entry 23: a reader has at most one SNAPSHOT in progress, so a SNAPSHOT of a reader whose last one has not
ended is the next read of that one, and begins no second one beside it. -/
def State.snapshotRead (r : Nat) (s : State) : State :=
  (s.readEntry r (s.nextIndex r)).storeSnap r
    (snapSet (s.snapOf r) (s.nextIndex r) (s.readValue r (s.nextIndex r)))

/-! ### Run state, STATUS and enabling -/

/-- The code of a run state (R21). -/
def RunState.code : RunState → BitVec 2
  | .stopped => 0b00#2
  | .idle => 0b01#2
  | .inLine => 0b10#2
  | .faulted => 0b11#2

/-- The run states in which the engine parses. -/
def RunState.parsing : RunState → Bool
  | .idle | .inLine => true
  | .stopped | .faulted => false

/-- The STATUS word `{0b00000, S.cp, code(S.rs)}` (R25, R94). -/
def State.statusWord (s : State) : Byte := 0#5 ++ BitVec.ofBool s.cp ++ s.rs.code

/-- CANCEL_TAKE is enabled exactly when `S.rs = IDLE` and `S.cp = 1` (R97). -/
def State.takeEnabled (s : State) : Bool := s.rs == .idle && s.cp

/-- Conditions 2 and 3 of a byte step (R71): parsing, and not at a line start with a cancel pending. Condition 1, that the
transport offers the byte, is the byte at hand. -/
def State.byteEnabled (s : State) : Bool := s.rs.parsing && !s.takeEnabled

/-- An engine step that runs only where it is enabled. Where it is not, no such step exists and nothing happens (log
entry 12). -/
def whenEnabled (enabled : Bool) (s t : State) : Host.Outcome State Fault Refusal :=
  if enabled then .next t else .next s

/-- Run one operation after another. -/
def andThen (o : Host.Outcome State Fault Refusal) (f : State → Host.Outcome State Fault Refusal) :
    Host.Outcome State Fault Refusal :=
  match o with
  | .next s => f s
  | .fault r => .fault r
  | .refused r => .refused r

/-! ### Errors -/

/-- The code of an error kind, a name for tables only: no register holds it (R102). -/
def ErrorKind.code : ErrorKind → Nat
  | .malformedFrame _ => 1
  | .transportFault => 2

/-- The end of a line, valid or malformed: the line state is cleared and the engine is at a line start (R77). -/
def State.endLine (s : State) : State := { s with line := Line.clear, rs := .idle }

/-- Raising an error, the one operation for both kinds (R110: nothing is saved, nothing vectors, no mode changes).
MalformedFrame's whole effect is the end of the line, whatever its cause (R103). TransportFault's is the move to FAULTED
with the line and cancel state cleared (R105). The caller checks that the error can occur. -/
def State.raise (e : ErrorKind) (s : State) : State :=
  match e with
  | .malformedFrame _ => s.endLine
  | .transportFault => { s with rs := .faulted, cp := false, line := Line.clear }

/-- The return from FAULTED, and the first start (R95, R111): to IDLE, line and cancel state cleared, nothing restored, the
register file kept. -/
def State.resume (s : State) : State := { s with rs := .idle, cp := false, line := Line.clear }

/-- The block's part of RESET (R118). The agents around the block keep what is theirs: the bytes not consumed, the moves to
come, a SNAPSHOT in progress, the answers received (log entry 7); the draw counter goes on, so that no draw repeats. -/
def State.resetBlock (s : State) : State :=
  { State.reset with
    stream := s.stream, moves := s.moves, snaps := s.snaps, replies := s.replies, draws := s.draws }

end Sys2Proof.Machine
end

