-- ==== Sys2Proof/Machine/Exceptions.lean ====
section
/-!
DEFINITION. TRANSPORT_FAULT (spec/60_exceptions.md). MalformedFrame, the other error kind, is raised inside the LF step
(Machine/LineParser.lean); both go through `State.raise`.
-/

namespace Sys2Proof.Machine

/-- TRANSPORT_FAULT (R105): ends a session; with none to end, in STOPPED and FAULTED, no effect. -/
def execTransportFault (s : State) : Host.Outcome State Fault Refusal :=
  if s.rs.parsing then .next (s.raise .transportFault) else .next s

end Sys2Proof.Machine
end

