-- ==== Sys2Proof/Machine/HostPorts.lean ====
section
/-!
DEFINITION. The reader ports, the control events and the engine's cancel-take step (spec/42_host_ports.md).
-/

namespace Sys2Proof.Machine

/-- GET (R92): one ReadEntry, in every run state. -/
def execGet (r : Nat) (i : Index) (s : State) : Host.Outcome State Fault Refusal := .next (s.readEntry r i)

/-- SNAPSHOT (R93), one of its 32 reader steps: it reads one entry not read yet, and the step that reads the last one hands
T to the reader. Other agents' moves may stand between two of them. A SNAPSHOT of a reader that has one in progress goes on
with that one. Log entries 6 and 23. -/
def execSnapshot (r : Nat) (s : State) : Host.Outcome State Fault Refusal := .next (s.snapshotRead r)

/-- STATUS (R94): the values of `S.rs` and `S.cp` at this step. -/
def execStatus (s : State) : Host.Outcome State Fault Refusal :=
  .next { s with replies := .status s.statusWord :: s.replies }

/-- START (R95): from STOPPED or FAULTED to IDLE; ignored while parsing. -/
def execStart (s : State) : Host.Outcome State Fault Refusal :=
  if s.rs.parsing then .next s else .next s.resume

/-- CANCEL (R96): a request while parsing; ignored otherwise. -/
def execCancel (s : State) : Host.Outcome State Fault Refusal :=
  if s.rs.parsing then .next { s with cp := true } else .next s

/-- CANCEL_TAKE (R97): the pending cancellation takes effect. -/
def execCancelTake (s : State) : Host.Outcome State Fault Refusal :=
  whenEnabled s.takeEnabled s { s with rs := .stopped, cp := false }

end Sys2Proof.Machine
end

