-- ==== Sys2Proof/Machine/Flags.lean ====
section
/-!
DEFINITION. The hidden line state's updates, one for each byte class, and what the line is when its LF comes. The block has
no architectural flags (R26).
-/

namespace Sys2Proof.Machine

/-- `S.ovf` after a digit: sticky, and set when the accumulator's top digit would be shifted out (R74, R79). -/
def Line.ovfAfterHex (l : Line) : Bool := l.ovf || l.acc.extractLsb' 12 4 != 0#4

/-- `S.bad` after a digit or a CR: sticky, and set when the byte before was a CR, which is then not the last before LF
(R74, R75). -/
def Line.badAfterCr (l : Line) : Bool := l.bad || l.crp

/-- The line state after a HEX byte of digit value `d` (R74). -/
def Line.hex (d : Digit) (l : Line) : Line where
  acc := l.acc.extractLsb' 0 12 ++ d
  nz := true
  ovf := l.ovfAfterHex
  bad := l.badAfterCr
  crp := false

/-- The line state after a CR (R75). -/
def Line.cr (l : Line) : Line := { l with bad := l.badAfterCr, crp := true }

/-- The line state after an OTHER byte (R76). -/
def Line.other (l : Line) : Line := { l with bad := true, crp := false }

/-- What the line is at its LF: the accumulated word when `S.nz = 1`, `S.ovf = 0` and `S.bad = 0` (R77), otherwise
malformed, with the first cause that holds in the order BADCHAR, EMPTY, OVERFLOW (R104). -/
def Line.verdict (l : Line) : Verdict :=
  if l.bad then .malformed .badChar
  else if !l.nz then .malformed .empty
  else if l.ovf then .malformed .overflow
  else .frame l.acc

end Sys2Proof.Machine
end

