-- ==== Sys2Proof/Machine/Operands.lean ====
section
/-!
DEFINITION. The operand of every byte instruction: the digit value of each HEX row (spec/30_encoding.md R50, R51; the
notes of spec/opcode_table.json). The operands of a frame are `frameAddr` and `frameVal` (Decode.lean), the index of an
entry is `idx` (Machine/Ops.lean).
-/

namespace Sys2Proof.Machine

/-- Bytes 0x30..0x37: `b - 0x30`, the three open bits. -/
def digit07 (d : BitVec 3) : Digit := 0#1 ++ d

/-- Bytes 0x38..0x39: `b - 0x30`, 8 or 9. -/
def digit89 (d : BitVec 1) : Digit := 8#4 + d.setWidth 4

/-- Bytes 0x41 and 0x61. -/
def digitA : Digit := 10#4

/-- Bytes 0x42..0x43 (`b - 0x37`) and 0x62..0x63 (`b - 0x57`): 11 or 12. -/
def digitBC (d : BitVec 1) : Digit := 11#4 + d.setWidth 4

/-- Bytes 0x44..0x45 (`b - 0x37`) and 0x64..0x65 (`b - 0x57`): 13 or 14. -/
def digitDE (d : BitVec 1) : Digit := 13#4 + d.setWidth 4

/-- Bytes 0x46 and 0x66. -/
def digitF : Digit := 15#4

end Sys2Proof.Machine
end

