-- ==== Sys2Proof/Machine/Frame.lean ====
section
/-!
DEFINITION. The frame instructions WRA and WRB, and ExecuteFrame, which the LF step of a valid line calls
(spec/41_frame_update.md).
-/

namespace Sys2Proof.Machine

/-- WRA (R84): `i = {1, a}`, `x[i] <- v`. -/
def execWra (a : Addr) (v : Byte) (s : State) : Host.Outcome State Fault Refusal := .next (s.writeEntry (idx .a a) v)

/-- WRB (R85): `i = {0, a}`, `x[i] <- v`. -/
def execWrb (a : Addr) (v : Byte) (s : State) : Host.Outcome State Fault Refusal := .next (s.writeEntry (idx .b a) v)

/-- `ExecuteFrame(W)` (R82): the instruction W[12] selects, on the operands decoded from W. -/
def executeFrame (w : Word) (s : State) : Host.Outcome State Fault Refusal :=
  match frameBank w with
  | .a => execWra (frameAddr w) (frameVal w) s
  | .b => execWrb (frameAddr w) (frameVal w) s

end Sys2Proof.Machine
end

