-- ==== Sys2Proof/Machine/LineParser.lean ====
section
/-!
DEFINITION. The byte instructions of the line parser (spec/40_line_parser.md). Each runs where a byte step is enabled
(R71); elsewhere the engine consumes nothing and nothing happens.
-/

namespace Sys2Proof.Machine

/-- A byte inside the line: RS becomes IN_LINE and the line state `l` (the shape of R74, R75 and R76). -/
def State.inLineWith (l : Line) (s : State) : State := { s with rs := .inLine, line := l }

/-- A HEX byte of digit value `d` (R74). -/
def hexByte (d : Digit) (s : State) : Host.Outcome State Fault Refusal :=
  whenEnabled s.byteEnabled s (s.inLineWith (s.line.hex d))

/-- HEX.0-7 (R74). -/
def execHex07 (d : BitVec 3) (s : State) : Host.Outcome State Fault Refusal := hexByte (digit07 d) s

/-- HEX.8-9 (R74). -/
def execHex89 (d : BitVec 1) (s : State) : Host.Outcome State Fault Refusal := hexByte (digit89 d) s

/-- HEX.A (R74). -/
def execHexUpA (s : State) : Host.Outcome State Fault Refusal := hexByte digitA s

/-- HEX.B-C (R74). -/
def execHexUpBC (d : BitVec 1) (s : State) : Host.Outcome State Fault Refusal := hexByte (digitBC d) s

/-- HEX.D-E (R74). -/
def execHexUpDE (d : BitVec 1) (s : State) : Host.Outcome State Fault Refusal := hexByte (digitDE d) s

/-- HEX.F (R74). -/
def execHexUpF (s : State) : Host.Outcome State Fault Refusal := hexByte digitF s

/-- HEX.a (R74): lower case gives the same digit as upper case. -/
def execHexLoA (s : State) : Host.Outcome State Fault Refusal := hexByte digitA s

/-- HEX.b-c (R74). -/
def execHexLoBC (d : BitVec 1) (s : State) : Host.Outcome State Fault Refusal := hexByte (digitBC d) s

/-- HEX.d-e (R74). -/
def execHexLoDE (d : BitVec 1) (s : State) : Host.Outcome State Fault Refusal := hexByte (digitDE d) s

/-- HEX.f (R74). -/
def execHexLoF (s : State) : Host.Outcome State Fault Refusal := hexByte digitF s

/-- CR (R75). -/
def execCr (s : State) : Host.Outcome State Fault Refusal :=
  whenEnabled s.byteEnabled s (s.inLineWith s.line.cr)

/-- OTHER (R76): the byte's value is not used. -/
def execOther (_b : Byte) (s : State) : Host.Outcome State Fault Refusal :=
  whenEnabled s.byteEnabled s (s.inLineWith s.line.other)

/-- The effect of an enabled LF (R77), one indivisible step: a valid line's frame is executed and the line ended, a
malformed line raises MalformedFrame, whose whole effect is the end of the line. -/
def endOfLine (s : State) : Host.Outcome State Fault Refusal :=
  match s.line.verdict with
  | .frame w => andThen (executeFrame w s) fun t => .next t.endLine
  | .malformed c => .next (s.raise (.malformedFrame c))

/-- LF (R77). -/
def execLf (s : State) : Host.Outcome State Fault Refusal :=
  if s.byteEnabled then endOfLine s else .next s

end Sys2Proof.Machine
end

