-- ==== Sys2Proof/Machine/Reset.lean ====
section
/-!
DEFINITION. RESET (spec/70_reset_and_hazards.md).
-/

namespace Sys2Proof.Machine

/-- RESET (R118): every piece of the block's state to its reset value, in every run state. -/
def execReset (s : State) : Host.Outcome State Fault Refusal := .next s.resetBlock

end Sys2Proof.Machine
end

