-- ==== Sys2Proof/Machine/Dispatch.lean ====
section
/-!
DEFINITION. The meaning of every instruction: one arm for each constructor of `Instr`.
-/

namespace Sys2Proof.Machine

/-- What an instruction does. -/
def exec (i : Instr) (s : State) : Host.Outcome State Fault Refusal :=
  match i with
  -- frame instructions
  | .wra a v => Sys2Proof.Machine.execWra a v s
  | .wrb a v => Sys2Proof.Machine.execWrb a v s
  -- byte instructions
  | .hex07 d => Sys2Proof.Machine.execHex07 d s
  | .hex89 d => Sys2Proof.Machine.execHex89 d s
  | .hexUpA => Sys2Proof.Machine.execHexUpA s
  | .hexUpBC d => Sys2Proof.Machine.execHexUpBC d s
  | .hexUpDE d => Sys2Proof.Machine.execHexUpDE d s
  | .hexUpF => Sys2Proof.Machine.execHexUpF s
  | .hexLoA => Sys2Proof.Machine.execHexLoA s
  | .hexLoBC d => Sys2Proof.Machine.execHexLoBC d s
  | .hexLoDE d => Sys2Proof.Machine.execHexLoDE d s
  | .hexLoF => Sys2Proof.Machine.execHexLoF s
  | .cr => Sys2Proof.Machine.execCr s
  | .lf => Sys2Proof.Machine.execLf s
  | .other b => Sys2Proof.Machine.execOther b s
  -- reader ports
  | .get r j => Sys2Proof.Machine.execGet r j s
  | .snapshot r => Sys2Proof.Machine.execSnapshot r s
  | .status => Sys2Proof.Machine.execStatus s
  -- control and fault events, and the engine's internal step
  | .start => Sys2Proof.Machine.execStart s
  | .cancel => Sys2Proof.Machine.execCancel s
  | .cancelTake => Sys2Proof.Machine.execCancelTake s
  | .transportFault => Sys2Proof.Machine.execTransportFault s
  | .reset => Sys2Proof.Machine.execReset s

end Sys2Proof.Machine
end

