-- ==== Sys2Proof/Machine/Fetch.lean ====
section
/-!
DEFINITION. Where the next instruction comes from. The block has no program counter (R20): its instructions are the bytes
the transport offers, the inputs at its ports, and the engine's own cancel-take step.
-/

namespace Sys2Proof.Machine

/-- What comes next: an instruction, with the state in which the input that brought it has been taken; or no instruction,
with the state the move leaves. -/
inductive Fetched where
  | run (i : Instr) (s : State)
  | hold (s : State)
deriving DecidableEq, Repr

/-- The engine's next instruction. At IDLE with a cancel pending, the cancel-take goes before any byte (R71, R97). Where a
byte step is enabled, the byte offered is consumed (R71). Otherwise the engine holds (R72): a byte not enabled stays with
the transport, neither dropped nor changed. -/
def State.engineFetch (s : State) : Fetched :=
  if s.takeEnabled then .run .cancelTake s
  else if s.byteEnabled then
    match s.stream with
    | b :: bs => .run (decodeByte b) { s with stream := bs }
    | [] => .hold s
  else .hold s

/-- The next move's instruction. A byte the transport offers joins the bytes not consumed yet; with no move listed, the
engine moves (log entry 2). -/
def State.fetch (s : State) : Fetched :=
  match s.moves with
  | [] => s.engineFetch
  | .engine :: ms => { s with moves := ms }.engineFetch
  | .offer b :: ms => .hold { s with moves := ms, stream := s.stream ++ [b] }
  | .port p :: ms => .run (decodePort p) { s with moves := ms }
  | .event e :: ms => .run (decodeEvent e) { s with moves := ms }

/-- The state in which the engine's next step takes byte `b`: it is offered next, the engine moves next, and the engine is
parsing with no cancel to take first. -/
def State.offerNext (s : State) (b : Byte) : State :=
  { s with
    stream := b :: s.stream
    moves := .engine :: s.moves
    rs := if s.rs.parsing then s.rs else .idle
    cp := s.cp && s.rs == .inLine }

/-- The state in which the engine's next step is the LF that executes frame word `w`: the line in progress spells `w`. -/
def State.frameNext (s : State) (w : Word) : State :=
  { s with
    stream := 0x0A#8 :: s.stream
    moves := .engine :: s.moves
    rs := .inLine
    line := { acc := w, nz := true, ovf := false, bad := false, crp := false } }

end Sys2Proof.Machine
end

