-- ==== Sys2Proof/Machine/Step.lean ====
section
/-!
DEFINITION. One step: the next move's instruction is run. Every rule about which one that is stands in Machine/Fetch.lean.
-/

namespace Sys2Proof.Machine

/-- One step of one agent (R7, R91). A hold is a step that changes nothing in the block: waiting is "not a fault and not a
stop" (R72). -/
def step (s : State) : Host.Outcome State Fault Refusal :=
  match s.fetch with
  | .run i t => exec i t
  | .hold t => .next t

/-- `s` with an instruction placed so that the very next step runs it. 8 bits are an input byte: the transport offers it to
a parsing engine. 16 bits are a frame word: the line in progress spells it and its LF is offered, since a frame is
executed in the LF step (R82). No other instruction has bits in the data stream (R68). Log entries 13 and 18. -/
def State.withFetchWord (s : State) (nbits w : Nat) : State :=
  if nbits = 8 then s.offerNext (BitVec.ofNat 8 w)
  else if nbits = 16 then s.frameNext (BitVec.ofNat 16 w)
  else s

end Sys2Proof.Machine
end

