-- ==== Sys2Proof/Machine/Clocked.lean ====
section
/-!
DEFINITION. One cycle of a clocked realisation (spec/60_exceptions.md R108). The step relation has no simultaneous events;
a clocked block that sees several in one cycle applies them in the order the spec fixes, each to the state the one before
leaves, if still enabled. Log entry 16.
-/

namespace Sys2Proof.Machine

/-- The events a clocked block can see in one cycle beside the byte its transport offers, the head of `stream`. -/
structure Cycle where
  reset : Bool
  fault : Bool
  start : Bool
  cancel : Bool
deriving DecidableEq, Repr

/-- An event stage: the event is applied if it is asserted. -/
def eventStage (asserted : Bool) (e : EventIn) (s : State) : Host.Outcome State Fault Refusal :=
  if asserted then exec (decodeEvent e) s else .next s

/-- The byte stage: the byte step, if a byte is offered and the step is enabled (R71). -/
def byteStage (s : State) : Host.Outcome State Fault Refusal :=
  match s.stream with
  | b :: bs => if s.byteEnabled then exec (decodeByte b) { s with stream := bs } else .next s
  | [] => .next s

/-- One cycle: RESET, TRANSPORT_FAULT, START, CANCEL, CANCEL_TAKE, byte step, in this order (R108). -/
def clockedCycle (c : Cycle) (s : State) : Host.Outcome State Fault Refusal :=
  andThen (eventStage c.reset .reset s) fun s =>
  andThen (eventStage c.fault .transportFault s) fun s =>
  andThen (eventStage c.start .start s) fun s =>
  andThen (eventStage c.cancel .cancel s) fun s =>
  andThen (exec .cancelTake s) byteStage

/-- The interleaving a cycle realises: its events in the order of R108, then one move of the engine. -/
def Cycle.moves (c : Cycle) : List Move :=
  (if c.reset then [.event .reset] else []) ++ (if c.fault then [.event .transportFault] else [])
    ++ (if c.start then [.event .start] else []) ++ (if c.cancel then [.event .cancel] else []) ++ [.engine]

end Sys2Proof.Machine
end

