-- ==== Sys2Proof/Safety.lean ====
section
/-!
DEFINITION. What claims about a run are stated in: the invariant, quiescence (R128), the readers' parameter (R9), the runs
and the fairness assumption `VisFair` (R45), and feeding bytes to the parser.
-/

namespace Sys2Proof.Machine

/-! ### The invariant -/

/-- What holds at reset and is kept by every step. -/
structure State.Inv (s : State) : Prop where
  /-- The watermark table is in its canonical form. -/
  seenWf : Table.wf 0 s.seen = true
  /-- The snapshot table is in its canonical form. -/
  snapsWf : Table.wf noReads s.snaps = true
  /-- A watermark is a position of its entry's log, so a read has a draw to choose (R43). -/
  seenBelow : ∀ r i, s.seenAt r i < (s.log i).length
  /-- A SNAPSHOT in progress still has an entry to read. -/
  snapsOpen : ∀ r, unread (s.snapOf r) ≠ []
  /-- A cancel is pending only while the engine parses (R24, R96). -/
  cpParsing : s.cp = true → s.rs.parsing = true
  /-- Outside a line the line state is clear (R22). -/
  lineClear : s.rs ≠ .inLine → s.line = Line.clear
  /-- Inside a line at least one byte has been consumed (R21). -/
  lineStarted : s.rs = .inLine → (s.line.nz || s.line.bad || s.line.crp) = true
  /-- Before the first digit nothing has been accumulated (R22, R74). -/
  digitsFirst : s.line.nz = false → s.line.acc = 0#16 ∧ s.line.ovf = false

/-! ### The engine's enabled steps -/

/-- No engine step is enabled (R128). -/
def State.quiescent (s : State) : Bool :=
  !s.rs.parsing || (s.rs.parsing && s.stream.isEmpty && !s.takeEnabled)

/-! ### Readers -/

/-- The reader a port operation comes from is below `n`. -/
def PortOp.below (n : Nat) : PortOp → Bool
  | .get r _ => decide (r < n)
  | .snapshot r => decide (r < n)
  | .status => true

/-- The reader a move comes from, if it is a reader's, is below `n`. -/
def Move.below (n : Nat) : Move → Bool
  | .port p => PortOp.below n p
  | .offer _ | .engine | .event _ => true

/-- The block has `n` readers (NumReaders, R9): every move comes from one of them, and no other has a watermark or a
SNAPSHOT in progress. -/
structure State.ReadersBelow (n : Nat) (s : State) : Prop where
  moves : s.moves.all (Move.below n) = true
  seen : ∀ r i, n ≤ r → s.seenAt r i = 0
  snaps : ∀ r, n ≤ r → s.snapOf r = noReads

/-! ### Agents -/

/-- The agents of the block (R91). -/
inductive Agent where
  | engine
  | transport
  | host
  | reader (r : Nat)
  /-- Any agent: a STATUS read is open to all (R94). -/
  | anyone
deriving DecidableEq, Repr

/-- The one agent whose operation a move is (R113, R99). -/
def Move.agent : Move → Agent
  | .offer _ => .transport
  | .engine => .engine
  | .port (.get r _) => .reader r
  | .port (.snapshot r) => .reader r
  | .port .status => .anyone
  | .event .transportFault => .transport
  | .event .start | .event .cancel | .event .reset => .host

/-- The agent that takes the next step: the engine when no move is listed. -/
def State.mover (s : State) : Agent := (s.moves.head?.map Move.agent).getD .engine

/-! ### Feeding bytes to the parser -/

/-- The engine's byte steps on a list of bytes, one after another. -/
def feed : List Byte → State → Host.Outcome State Fault Refusal
  | [], s => .next s
  | b :: bs, s => andThen (exec (decodeByte b) s) (feed bs)

/-- What a whole line, given without its LF, does to the register file: a valid line writes the one entry its frame word
names, a malformed line nothing (R87, R103). -/
def lineEffect (line : List Byte) (s : State) : State :=
  match decodeLine line with
  | .frame w => s.writeEntry (idx (frameBank w) (frameAddr w)) (frameVal w)
  | .malformed _ => s

/-- The bytes of a list of lines on the wire, each line given without its LF. -/
def wireBytes (lines : List (List Byte)) : List Byte := lines.flatMap fun line => line ++ [0x0A#8]

/-- The engine can take a byte of a new line: at a line start, nothing accumulated, no cancel pending (R22, R71). -/
def State.atLineStart (s : State) : Prop := s.rs = .idle ∧ s.cp = false ∧ s.line = Line.clear

/-- One instruction executed `n` times in a row. -/
def execTimes : Nat → Instr → State → Host.Outcome State Fault Refusal
  | 0, _, s => .next s
  | n + 1, i, s => andThen (exec i s) (execTimes n i)

/-! ### Runs and fairness -/

/-- `n` steps of the machine in a row (`Host.Core.run` of the machine, in the machine's own names). -/
def stepTimes : Nat → State → Host.Outcome State Fault Refusal
  | 0, s => .next s
  | n + 1, s => andThen (step s) (stepTimes n)

/-- An infinite run of the machine among its agents: after each step the agents may have listed any further moves, so that
no run has to end in the engine's moves alone (log entry 1). -/
def IsRun (run : Nat → State) : Prop :=
  ∀ n, ∃ (t : State) (more : List Move), step (run n) = .next t ∧ run (n + 1) = { t with moves := t.moves ++ more }

/-- The answers given between two states of a run. -/
def newReplies (s t : State) : List Reply := t.replies.take (t.replies.length - s.replies.length)

/-- `VisFair` (R45), the named fairness assumption on visibility: for every reader and entry, if the entry receives no
further write, then from some step on every ReadEntry returns the newest value. It is no part of the step; a claim that
needs it takes it as a premise. -/
def VisFair (run : Nat → State) : Prop :=
  ∀ r i n₀, (∀ n, n₀ ≤ n → (run n).log i = (run n₀).log i) →
    ∃ m, ∀ n, m ≤ n → ∀ v, Reply.entry r i v ∈ newReplies (run n) (run (n + 1)) → v = (run n).rf i

/-- Weak fairness for the engine on a run: again and again it is the engine's turn. The spec's claims that something
eventually happens rest on it (R97, D22); it is no part of the step. -/
def EngineFair (run : Nat → State) : Prop := ∀ n, ∃ m, n ≤ m ∧ (run m).mover = .engine

end Sys2Proof.Machine
end

