-- ==== Sys2Proof/Certificates/Slice0/Obligations.lean ====
section
/-!
DEFINITION. The statements for the provers. Each docstring names the rules of spec/ it formalises. "Enabled" for a byte is
written out as R71 has it: at IDLE with no cancel pending, or IN_LINE.
-/

open Sys2Proof Sys2Proof.Machine

/-! ### Encoding -/

/-- R11: `rev_N(v)[j] = v[N-1-j]` for every j in 0..N-1, and `rev_N` is its own inverse, for N = 4 and N = 8. -/
def Obligations.BitReversal : Prop :=
  (∀ (v : BitVec 4) (j : Nat), j < 4 → (rev4 v).getLsbD j = v.getLsbD (3 - j)) ∧
  (∀ (v : BitVec 8) (j : Nat), j < 8 → (rev8 v).getLsbD j = v.getLsbD (7 - j)) ∧
  (∀ v : BitVec 4, rev4 (rev4 v) = v) ∧ (∀ v : BitVec 8, rev8 (rev8 v) = v)

/-- R58, R59, R60: the bank is bit 12, `addr(W)[j] = W[11-j]`, `val(W)[j] = W[7-j]`; and the frame instruction is the one
of the bank with exactly these operands (R65, R83). -/
def Obligations.FrameFields : Prop :=
  ∀ w : Word,
    (frameBank w = .a ↔ w.getLsbD 12 = true) ∧
    (∀ j : Nat, j < 4 → (frameAddr w).getLsbD j = w.getLsbD (11 - j)) ∧
    (∀ j : Nat, j < 8 → (frameVal w).getLsbD j = w.getLsbD (7 - j)) ∧
    (w.getLsbD 12 = true → decodeFrame w = .wra (frameAddr w) (frameVal w)) ∧
    (w.getLsbD 12 = false → decodeFrame w = .wrb (frameAddr w) (frameVal w))

/-- R61: a word with any value in W[15:13] decodes exactly as the same word with those bits zero. With R63: two words decode
alike exactly when they agree in W[12:0], so a triple is decoded from exactly the 8 words that differ in W[15:13]. -/
def Obligations.HighBitsIgnored : Prop :=
  ∀ w w' : Word, decodeFrame w = decodeFrame w' ↔ w.extractLsb' 0 13 = w'.extractLsb' 0 13

/-- R64: Enc has the bits `{000, bank_bit, rev_4(address), rev_8(value)}`; decoding the encoded triple gives the triple back;
and encoding what a word decodes to gives the word with bits 15:13 zero, so it reproduces the word's fields. -/
def Obligations.FrameRoundTrip : Prop :=
  (∀ (bank : Bank) (a : Addr) (v : Byte),
    (encodeFrame bank a v).extractLsb' 13 3 = 0#3 ∧
    ((encodeFrame bank a v).getLsbD 12 = true ↔ bank = .a) ∧
    (encodeFrame bank a v).extractLsb' 8 4 = rev4 a ∧
    (encodeFrame bank a v).extractLsb' 0 8 = rev8 v ∧
    frameBank (encodeFrame bank a v) = bank ∧ frameAddr (encodeFrame bank a v) = a ∧
    frameVal (encodeFrame bank a v) = v) ∧
  (∀ w : Word, encodeFrame (frameBank w) (frameAddr w) (frameVal w) = w &&& 0x1FFF#16)

/-- R62: the address decode table, every value of W[11:8] in a word of any other bits. -/
def Obligations.AddressTable : Prop :=
  ∀ w : Word,
    (frameAddr w).toNat =
      [0, 8, 4, 12, 2, 10, 6, 14, 1, 9, 5, 13, 3, 11, 7, 15].getD (w.extractLsb' 8 4).toNat 0

/-- Decode and encode agree on every well-formed instruction, every operand at every value its row admits. -/
def Obligations.DecodeEncode : Prop :=
  ∀ (numReaders : Nat) (i : Instr), i.WellFormed numReaders = true → decode (encode i) = i

/-- Decoding a few words written out bit by bit from the spec's encodings, one of every family that has bits: 0x9080 and
0x1CEC are WRA, 0x0A37 is WRB (R84, R85, the vectors of spec/95_test_vectors.md), the bytes of R50 are their rows. -/
def Obligations.DecodeVectors : Prop :=
  decodeTableWord 16 0b1001000010000000 = some (.wra 0#4 1#8) ∧
  decodeTableWord 16 0b0001110011101100 = some (.wra 3#4 0x37#8) ∧
  decodeTableWord 16 0b0000101000110111 = some (.wrb 5#4 236#8) ∧
  decodeTableWord 8 0b00110111 = some (.hex07 7#3) ∧
  decodeTableWord 8 0b00111001 = some (.hex89 1#1) ∧
  decodeTableWord 8 0b01000001 = some .hexUpA ∧
  decodeTableWord 8 0b01000010 = some (.hexUpBC 0#1) ∧
  decodeTableWord 8 0b01000101 = some (.hexUpDE 1#1) ∧
  decodeTableWord 8 0b01000110 = some .hexUpF ∧
  decodeTableWord 8 0b01100001 = some .hexLoA ∧
  decodeTableWord 8 0b01100011 = some (.hexLoBC 1#1) ∧
  decodeTableWord 8 0b01100100 = some (.hexLoDE 0#1) ∧
  decodeTableWord 8 0b01100110 = some .hexLoF ∧
  decodeTableWord 8 0b00001101 = some .cr ∧
  decodeTableWord 8 0b00001010 = some .lf ∧
  decodeTableWord 8 0b01100111 = some (.other 0x67#8)

/-- R51: `hexval` on the three ranges, none outside them. -/
def Obligations.HexDigits : Prop :=
  ∀ b : Byte,
    (0x30 ≤ b.toNat ∧ b.toNat ≤ 0x39 → ∃ d, hexval b = some d ∧ d.toNat = b.toNat - 0x30) ∧
    (0x41 ≤ b.toNat ∧ b.toNat ≤ 0x46 → ∃ d, hexval b = some d ∧ d.toNat = b.toNat - 0x37) ∧
    (0x61 ≤ b.toNat ∧ b.toNat ≤ 0x66 → ∃ d, hexval b = some d ∧ d.toNat = b.toNat - 0x57) ∧
    (¬(0x30 ≤ b.toNat ∧ b.toNat ≤ 0x39) → ¬(0x41 ≤ b.toNat ∧ b.toNat ≤ 0x46) →
      ¬(0x61 ≤ b.toNat ∧ b.toNat ≤ 0x66) → hexval b = none)

/-- R50: every byte is in exactly one class, HEX on the three ranges with their digit values, CR 0x0D, LF 0x0A, OTHER every
other value; and the counts are 22, 1, 1 and 232. -/
def Obligations.ByteClasses : Prop :=
  (∀ b : Byte,
    let digit := 0x30 ≤ b.toNat ∧ b.toNat ≤ 0x39
    let upper := 0x41 ≤ b.toNat ∧ b.toNat ≤ 0x46
    let lower := 0x61 ≤ b.toNat ∧ b.toNat ≤ 0x66
    (byteClass b = .hex ↔ digit ∨ upper ∨ lower) ∧ (byteClass b = .cr ↔ b = 0x0D#8) ∧
    (byteClass b = .lf ↔ b = 0x0A#8) ∧
    (byteClass b = .other ↔ ¬digit ∧ ¬upper ∧ ¬lower ∧ b ≠ 0x0D#8 ∧ b ≠ 0x0A#8) ∧
    (digit → hexval b = some (BitVec.ofNat 4 (b.toNat - 0x30))) ∧
    (upper → hexval b = some (BitVec.ofNat 4 (b.toNat - 0x41 + 10))) ∧
    (lower → hexval b = some (BitVec.ofNat 4 (b.toNat - 0x61 + 10))) ∧
    (byteClass b ≠ .hex → hexval b = none)) ∧
  (((List.range 256).map fun n => byteClass (BitVec.ofNat 8 n)).count .hex = 22 ∧
    ((List.range 256).map fun n => byteClass (BitVec.ofNat 8 n)).count .cr = 1 ∧
    ((List.range 256).map fun n => byteClass (BitVec.ofNat 8 n)).count .lf = 1 ∧
    ((List.range 256).map fun n => byteClass (BitVec.ofNat 8 n)).count .other = 232)

/-- R69, R54: the canonical line of every word is four upper-case hex digits, CR, LF, and it spells that word. -/
def Obligations.CanonicalLine : Prop :=
  ∀ w : Word, ∃ digits : List Byte,
    canonicalLine w = digits ++ [0x0D#8, 0x0A#8] ∧ digits.length = 4 ∧
    (∀ b ∈ digits, (0x30 ≤ b.toNat ∧ b.toNat ≤ 0x39) ∨ (0x41 ≤ b.toNat ∧ b.toNat ≤ 0x46)) ∧
    decodeLine (digits ++ [0x0D#8]) = .frame w

/-- R55: leading zeros may be added to a line with a body that is not empty, any number of them, and change nothing. -/
def Obligations.LeadingZeros : Prop :=
  ∀ (n : Nat) (line : List Byte), lineBody line ≠ [] →
    decodeLine (List.replicate n 0x30#8 ++ line) = decodeLine line

/-- R53, R54: a line is valid exactly when its body is non-empty, every byte of it is HEX, and its value is at most 0xFFFF;
it then spells the word of that value. The body is the line without one CR just before the LF (R52). -/
def Obligations.LineValidity : Prop :=
  ∀ (line body : List Byte),
    (line = body ++ [0x0D#8] ∨ (line = body ∧ body.getLast? ≠ some 0x0D#8)) →
    ∀ w : Word, decodeLine line = .frame w ↔
      body ≠ [] ∧ (∀ b ∈ body, (hexval b).isSome = true) ∧ bodyValue body = w.toNat

/-! ### The line parser -/

/-- R74: an enabled HEX byte of digit value d, for each of the ten HEX rows. -/
def Obligations.HexByte : Prop :=
  ∀ s : State, (s.rs = .idle ∧ s.cp = false) ∨ s.rs = .inLine →
    let after : Digit → State := fun d =>
      { s with
        rs := .inLine
        line :=
          { acc := s.line.acc.extractLsb' 0 12 ++ d
            nz := true
            ovf := s.line.ovf || decide (s.line.acc.extractLsb' 12 4 ≠ 0#4)
            bad := s.line.bad || s.line.crp
            crp := false } }
    (∀ d : BitVec 3, exec (.hex07 d) s = .next (after (d.setWidth 4))) ∧
    (∀ d : BitVec 1, exec (.hex89 d) s = .next (after (8#4 + d.setWidth 4))) ∧
    exec .hexUpA s = .next (after 10#4) ∧
    (∀ d : BitVec 1, exec (.hexUpBC d) s = .next (after (11#4 + d.setWidth 4))) ∧
    (∀ d : BitVec 1, exec (.hexUpDE d) s = .next (after (13#4 + d.setWidth 4))) ∧
    exec .hexUpF s = .next (after 15#4) ∧
    exec .hexLoA s = .next (after 10#4) ∧
    (∀ d : BitVec 1, exec (.hexLoBC d) s = .next (after (11#4 + d.setWidth 4))) ∧
    (∀ d : BitVec 1, exec (.hexLoDE d) s = .next (after (13#4 + d.setWidth 4))) ∧
    exec .hexLoF s = .next (after 15#4) ∧
    (∀ (b : Byte) (d : Digit), hexval b = some d → exec (decodeByte b) s = .next (after d))

/-- R75: an enabled CR, the byte 0x0D. -/
def Obligations.CrByte : Prop :=
  decodeByte 0x0D#8 = .cr ∧
  ∀ s : State, (s.rs = .idle ∧ s.cp = false) ∨ s.rs = .inLine →
    exec .cr s = .next
      { s with
        rs := .inLine
        line :=
          { acc := s.line.acc, nz := s.line.nz, ovf := s.line.ovf, bad := s.line.bad || s.line.crp, crp := true } }

/-- R76: an enabled OTHER byte, any byte that is not HEX, CR or LF; its value is not used. -/
def Obligations.OtherByte : Prop :=
  (∀ b : Byte, hexval b = none → b ≠ 0x0D#8 → b ≠ 0x0A#8 → decodeByte b = .other b) ∧
  ∀ (b : Byte) (s : State), (s.rs = .idle ∧ s.cp = false) ∨ s.rs = .inLine →
    exec (.other b) s = .next
      { s with
        rs := .inLine
        line := { acc := s.line.acc, nz := s.line.nz, ovf := s.line.ovf, bad := true, crp := false } }

/-- R77: an enabled LF, the byte 0x0A, executes the frame of a line with `S.nz = 1`, `S.ovf = 0`, `S.bad = 0`, then clears the
line state and returns to IDLE; on any other line it only clears and returns. -/
def Obligations.LfByte : Prop :=
  decodeByte 0x0A#8 = .lf ∧
  ∀ s : State, (s.rs = .idle ∧ s.cp = false) ∨ s.rs = .inLine →
    (s.line.nz = true ∧ s.line.ovf = false ∧ s.line.bad = false →
      ∃ t, exec (decodeFrame s.line.acc) s = .next t ∧
        exec .lf s = .next { t with rs := .idle, line := ⟨0#16, false, false, false, false⟩ }) ∧
    (¬(s.line.nz = true ∧ s.line.ovf = false ∧ s.line.bad = false) →
      exec .lf s = .next { s with rs := .idle, line := ⟨0#16, false, false, false, false⟩ })

/-- R71: a byte instruction where no byte step is enabled (STOPPED, FAULTED, IDLE with a cancel pending) does nothing. The
model's reading of "the engine consumes nothing" as a step that changes nothing is log entry 12. -/
def Obligations.ByteNotEnabled : Prop :=
  ∀ (b : Byte) (s : State), s.rs = .stopped ∨ s.rs = .faulted ∨ (s.rs = .idle ∧ s.cp = true) →
    exec (decodeByte b) s = .next s

/-- The frame of the byte instructions HEX.*, CR and OTHER, enabled or not: only RS and the hidden line state may change;
every entry, log, watermark, the cancel state, the bytes offered and every answer are as before. -/
def Obligations.ParserBytesFrame : Prop :=
  ∀ (b : Byte) (s t : State), b ≠ 0x0A#8 → exec (decodeByte b) s = .next t →
    t = { s with rs := t.rs, line := t.line } ∧ (∀ i, t.rf i = s.rf i) ∧ (∀ i, t.log i = s.log i)

/-- The frame of LF, enabled or not: beside RS and the line state only the register file may change, and in it only the
entry the accumulated frame word names. -/
def Obligations.LfFrame : Prop :=
  ∀ s t : State, exec .lf s = .next t →
    t = { s with rs := t.rs, line := t.line, writes := t.writes } ∧
    (∀ i, i ≠ idx (frameBank s.line.acc) (frameAddr s.line.acc) → t.log i = s.log i ∧ t.rf i = s.rf i)

/-- R81: the run-state transitions of the parser. -/
def Obligations.ParserTransitions : Prop :=
  ∀ (b : Byte) (s t : State), (s.rs = .idle ∧ s.cp = false) ∨ s.rs = .inLine → exec (decodeByte b) s = .next t →
    (b ≠ 0x0A#8 → t.rs = .inLine) ∧ (b = 0x0A#8 → t.rs = .idle)

/-- R78, R104: after the bytes of any line without its LF, taken from a line start, the parser's judgement of the line and the
word or cause it finds are those of the whole-line rule. -/
def Obligations.ParserAgreesWithLineRule : Prop :=
  ∀ (line : List Byte) (s : State), 0x0A#8 ∉ line → s.atLineStart →
    ∃ t, feed line s = .next t ∧
      ((t.line.nz = true ∧ t.line.ovf = false ∧ t.line.bad = false) ↔
        (lineBody line ≠ [] ∧ (∀ b ∈ lineBody line, (hexval b).isSome = true) ∧ bodyValue (lineBody line) ≤ 0xFFFF)) ∧
      ((t.line.nz = true ∧ t.line.ovf = false ∧ t.line.bad = false) → t.line.acc.toNat = bodyValue (lineBody line)) ∧
      t.line.verdict = decodeLine line

/-- R79: while the digits of a line are consumed, `S.acc` is the value modulo 2^16, and `S.ovf` is set exactly when the value
exceeds 0xFFFF. -/
def Obligations.AccumulatorArithmetic : Prop :=
  ∀ (digits : List Byte) (s : State), (∀ b ∈ digits, (hexval b).isSome = true) → s.atLineStart →
    ∃ t, feed digits s = .next t ∧ t.line.acc.toNat = bodyValue digits % 2 ^ 16 ∧
      (t.line.ovf = true ↔ 0xFFFF < bodyValue digits)

/-! ### Frames -/

/-- R84: a word with bit 12 set is WRA with `a = rev_4(W[11:8])` and `v = rev_8(W[7:0])`; WRA writes v into entry
`{1, a}`, which also appends v to that entry's log, and changes nothing else. -/
def Obligations.WriteBankA : Prop :=
  (∀ w : Word, w &&& 0x1000#16 = 0x1000#16 → decodeFrame w = .wra (rev4 (w.extractLsb' 8 4)) (rev8 (w.extractLsb' 0 8))) ∧
  ∀ (a : Addr) (v : Byte) (s : State), ∃ t, exec (.wra a v) s = .next t ∧
    (∀ i : Index, t.rf i = if i = 1#1 ++ a then v else s.rf i) ∧
    (∀ i : Index, t.log i = if i = 1#1 ++ a then s.log i ++ [v] else s.log i) ∧
    t = { s with writes := t.writes }

/-- R85: as R84, with bit 12 clear and entry `{0, a}`. -/
def Obligations.WriteBankB : Prop :=
  (∀ w : Word, w &&& 0x1000#16 = 0#16 → decodeFrame w = .wrb (rev4 (w.extractLsb' 8 4)) (rev8 (w.extractLsb' 0 8))) ∧
  ∀ (a : Addr) (v : Byte) (s : State), ∃ t, exec (.wrb a v) s = .next t ∧
    (∀ i : Index, t.rf i = if i = 0#1 ++ a then v else s.rf i) ∧
    (∀ i : Index, t.log i = if i = 0#1 ++ a then s.log i ++ [v] else s.log i) ∧
    t = { s with writes := t.writes }

/-- R14, R16, R29: the index of (bank, address) is `16 * bank_bit + address` with bank_bit(A) = 1; every index is the entry
of exactly one pair; and every index with every value is written by some frame word. -/
def Obligations.EveryEntryWritable : Prop :=
  (∀ a : Addr, (idx .a a).toNat = 16 + a.toNat ∧ (idx .b a).toNat = a.toNat) ∧
  (∀ (bank bank' : Bank) (a a' : Addr), idx bank a = idx bank' a' ↔ bank = bank' ∧ a = a') ∧
  (∀ (i : Index) (v : Byte) (s : State), ∃ (w : Word) (t : State), exec (decodeFrame w) s = .next t ∧ t.rf i = v)

/-- R73, R87: a line consumes exactly its own bytes, up to and including its LF; a valid line causes exactly one write, a
malformed line none, and the next line starts at the next byte. It rests on the bytes offered staying as they were offered
until they are consumed, which R99 marks ASSUMED of the transport (log entry 3). -/
def Obligations.OneLine : Prop :=
  ∀ (line rest : List Byte) (s : State), 0x0A#8 ∉ line → s.atLineStart → s.moves = [] →
    s.stream = line ++ 0x0A#8 :: rest →
    stepTimes (line.length + 1) s = .next { lineEffect line s with stream := rest }

/-- R87, R40: a stream of any lines causes exactly the writes of its valid lines, in the order the lines arrived, and its
malformed lines cause none and do not stall those after them. It rests on the bytes offered staying as they were offered
until they are consumed, which R99 marks ASSUMED of the transport (log entry 3). -/
def Obligations.LinesInOrder : Prop :=
  ∀ (lines : List (List Byte)) (rest : List Byte) (s : State), (∀ line ∈ lines, 0x0A#8 ∉ line) → s.atLineStart →
    s.moves = [] → s.stream = wireBytes lines ++ rest →
    stepTimes (wireBytes lines).length s =
      .next { lines.foldl (fun t line => lineEffect line t) s with stream := rest }

/-! ### Reader ports -/

/-- The draw of R43 reaches exactly the admitted range: every `k` with `lo <= k <= len - 1`, and nothing else. -/
def Obligations.DrawRange : Prop :=
  ∀ lo len : Nat, lo < len → ∀ k : Nat, (∃ x, pickPos x lo len = k) ↔ (lo ≤ k ∧ k ≤ len - 1)

/-- R92, with ReadEntry of R43: GET answers in every run state with `Log[i][k]` for a k in the admitted range, moves that
reader's watermark for that entry to k, and changes nothing else but the draw counter. Which k is a free value (log entry
4), and where the answer is kept is the model's choice (log entry 8). -/
def Obligations.GetRead : Prop :=
  ∀ (r : Nat) (i : Index) (s : State), s.Inv →
    ∃ (k : Nat) (t : State), exec (.get r i) s = .next t ∧
      s.seenAt r i ≤ k ∧ k ≤ (s.log i).length - 1 ∧
      (∃ v, (s.log i)[k]? = some v ∧ t.replies = .entry r i v :: s.replies) ∧
      t.seenAt r i = k ∧ (∀ r' i', ¬(r' = r ∧ i' = i) → t.seenAt r' i' = s.seenAt r' i') ∧
      t = { s with seen := t.seen, replies := t.replies, draws := s.draws + 1 }

/-- R93, R44: one reader step of a SNAPSHOT is one ReadEntry of an entry it has not read yet; its last one hands over the
whole table. Nothing else changes but the draw counter. One read at a time is the model's reading (log entry 6). That a
reader has one SNAPSHOT in progress, which every SNAPSHOT of that reader goes on with until it ends, is its choice (log entry
23), and so is where the answers are kept (log entry 8). -/
def Obligations.SnapshotRead : Prop :=
  ∀ (r : Nat) (s : State), s.Inv →
    ∃ (i : Index) (k : Nat) (v : Byte) (t : State), exec (.snapshot r) s = .next t ∧
      snapGet (s.snapOf r) i = none ∧
      s.seenAt r i ≤ k ∧ k ≤ (s.log i).length - 1 ∧ (s.log i)[k]? = some v ∧
      t.seenAt r i = k ∧ (∀ r' i', ¬(r' = r ∧ i' = i) → t.seenAt r' i' = s.seenAt r' i') ∧
      ((∃ j, j ≠ i ∧ snapGet (s.snapOf r) j = none) →
        t.replies = .entry r i v :: s.replies ∧
        ∀ j, snapGet (t.snapOf r) j = if j = i then some v else snapGet (s.snapOf r) j) ∧
      ((∀ j, j ≠ i → snapGet (s.snapOf r) j ≠ none) →
        (∀ j, snapGet (t.snapOf r) j = none) ∧
        ∃ table : Vector Byte 32, t.replies = .table r table :: .entry r i v :: s.replies ∧
          ∀ j : Index, some (table[j.toNat]'(j.isLt)) = if j = i then some v else snapGet (s.snapOf r) j) ∧
      (∀ r', r' ≠ r → t.snapOf r' = s.snapOf r') ∧
      t = { s with seen := t.seen, snaps := t.snaps, replies := t.replies, draws := s.draws + 1 }

/-- R93: a SNAPSHOT with no other step between its 32 reads completes: it hands over a table of 32 values, each an element of
its entry's log at or after the reader's watermark, which moves there exactly as 32 GETs would move it. That an instruction
is one read of the 32 is the model's reading (log entry 6), and that the 32 are all of one SNAPSHOT its choice (log entry
23). -/
def Obligations.SnapshotCompletes : Prop :=
  ∀ (r : Nat) (s : State), s.Inv → s.snapOf r = noReads →
    ∃ (t : State) (table : Vector Byte 32), execTimes 32 (.snapshot r) s = .next t ∧
      t.replies.head? = some (.table r table) ∧ t.snapOf r = noReads ∧
      (∀ i : Index, ∃ k, s.seenAt r i ≤ k ∧ k ≤ (s.log i).length - 1 ∧ t.seenAt r i = k ∧
        (s.log i)[k]? = some (table[i.toNat]'(i.isLt))) ∧
      (∀ r' i, r' ≠ r → t.seenAt r' i = s.seenAt r' i) ∧
      t = { s with seen := t.seen, snaps := t.snaps, replies := t.replies, draws := s.draws + 32 }

/-- R94: a STATUS read returns `{0b00000, S.cp, code(S.rs)}` of its own step, with the codes of R21, and changes nothing
else. Where the answer is kept is the model's choice (log entry 8). -/
def Obligations.StatusRead : Prop :=
  ∀ s : State, ∃ w : Byte, exec .status s = .next { s with replies := .status w :: s.replies } ∧
    w.extractLsb' 0 2 =
      (match s.rs with | .stopped => 0b00#2 | .idle => 0b01#2 | .inLine => 0b10#2 | .faulted => 0b11#2) ∧
    w.getLsbD 2 = s.cp ∧ w.extractLsb' 3 5 = 0#5

/-- R37, R19: a GET, SNAPSHOT or STATUS changes no entry, no run state, no STATUS field and no byte offered; of the watermarks
it changes only the reading agent's own. -/
def Obligations.ReadersFrame : Prop :=
  ∀ (p : PortOp) (s t : State), exec (decodePort p) s = .next t →
    t = { s with seen := t.seen, snaps := t.snaps, replies := t.replies, draws := t.draws } ∧
    (∀ i, t.rf i = s.rf i) ∧ (∀ i, t.log i = s.log i) ∧ t.statusWord = s.statusWord ∧
    (∀ r i, (∀ i', p ≠ .get r i') → p ≠ .snapshot r → t.seenAt r i = s.seenAt r i)

/-- R38: whether the engine has an enabled step never depends on any reader, and what that step does to the block does not
either. -/
def Obligations.ReadersNeverDelay : Prop :=
  ∀ (p : PortOp) (s t : State), exec (decodePort p) s = .next t →
    t.quiescent = s.quiescent ∧
    ∀ s' t', s.moves = [] → step s = .next s' → step t = .next t' →
      t'.writes = s'.writes ∧ t'.rs = s'.rs ∧ t'.line = s'.line ∧ t'.cp = s'.cp ∧ t'.stream = s'.stream

/-- R23: no port reads the hidden line state. Two states that differ in it alone (so with the same choice of draws) answer every reader operation alike. -/
def Obligations.LineStateHidden : Prop :=
  ∀ (p : PortOp) (l : Line) (s t : State), exec (decodePort p) s = .next t →
    exec (decodePort p) { s with line := l } = .next { t with line := l }

/-! ### Control and fault events -/

/-- R95: START. -/
def Obligations.StartEvent : Prop :=
  ∀ s : State,
    (s.rs = .stopped ∨ s.rs = .faulted →
      exec .start s = .next { s with rs := .idle, cp := false, line := ⟨0#16, false, false, false, false⟩ }) ∧
    (s.rs = .idle ∨ s.rs = .inLine → exec .start s = .next s)

/-- R96: CANCEL. -/
def Obligations.CancelEvent : Prop :=
  ∀ s : State,
    (s.rs = .idle ∨ s.rs = .inLine → exec .cancel s = .next { s with cp := true }) ∧
    (s.rs = .stopped ∨ s.rs = .faulted → exec .cancel s = .next s)

/-- R97: CANCEL_TAKE is enabled exactly at IDLE with a cancel pending, and then stops the engine. Where it is not enabled the
model's step changes nothing (log entry 12). -/
def Obligations.CancelTakeStep : Prop :=
  ∀ s : State,
    (s.rs = .idle ∧ s.cp = true → exec .cancelTake s = .next { s with rs := .stopped, cp := false }) ∧
    (¬(s.rs = .idle ∧ s.cp = true) → exec .cancelTake s = .next s)

/-- R105: TRANSPORT_FAULT. -/
def Obligations.TransportFaultEvent : Prop :=
  ∀ s : State,
    (s.rs = .idle ∨ s.rs = .inLine →
      exec .transportFault s =
        .next { s with rs := .faulted, cp := false, line := ⟨0#16, false, false, false, false⟩ }) ∧
    (s.rs = .stopped ∨ s.rs = .faulted → exec .transportFault s = .next s)

/-- R118: RESET, in every run state: every piece of the block's state to its reset value. -/
def Obligations.ResetEvent : Prop :=
  ∀ s : State, ∃ t, exec .reset s = .next t ∧
    (∀ i, t.rf i = 0#8 ∧ t.log i = [0#8]) ∧ (∀ r i, t.seenAt r i = 0) ∧
    t.rs = .stopped ∧ t.cp = false ∧ t.line = ⟨0#16, false, false, false, false⟩ ∧ t.statusWord = 0x00#8

/-- The frame of RESET: what the agents around the block hold stays as it is. That it does is the model's reading (log entry
7: R118 resets the block's state, and a byte not consumed stays with the transport). -/
def Obligations.ResetFrame : Prop :=
  ∀ s t : State, exec .reset s = .next t →
    t = { s with writes := t.writes, seen := t.seen, rs := t.rs, line := t.line, cp := t.cp }

/-- The frame of START, CANCEL, CANCEL_TAKE and TRANSPORT_FAULT (R28: the register file keeps its contents across them): only
RS, the cancel state and the line state may change. -/
def Obligations.ControlFrame : Prop :=
  ∀ (i : Instr) (s t : State), i = .start ∨ i = .cancel ∨ i = .cancelTake ∨ i = .transportFault → exec i s = .next t →
    t = { s with rs := t.rs, cp := t.cp, line := t.line } ∧ (∀ j, t.rf j = s.rf j) ∧ (∀ j, t.log j = s.log j)

/-- R100: the run-state transitions of the control and fault events, for each of the four run states. Where R100 says "not
enabled" the model's step changes nothing (log entry 12). -/
def Obligations.ControlTransitions : Prop :=
  ∀ s t : State,
    (exec .start s = .next t →
      t.rs = match s.rs with | .stopped => .idle | .idle => .idle | .inLine => .inLine | .faulted => .idle) ∧
    (exec .cancel s = .next t → t.rs = s.rs ∧ (s.rs = .idle ∨ s.rs = .inLine → t.cp = true)) ∧
    (exec .cancelTake s = .next t → s.cp = true →
      t.rs = match s.rs with | .stopped => .stopped | .idle => .stopped | .inLine => .inLine | .faulted => .faulted) ∧
    (exec .transportFault s = .next t →
      t.rs = match s.rs with | .stopped => .stopped | .idle => .faulted | .inLine => .faulted | .faulted => .faulted) ∧
    (exec .reset s = .next t → t.rs = .stopped)

/-! ### The machine -/

/-- R27: the values after reset. What the agents around the block hold then is the model's choice (log entry 13) and is not
stated. -/
def Obligations.ResetValues : Prop :=
  (∀ i, State.reset.rf i = 0#8 ∧ State.reset.log i = [0#8]) ∧ (∀ r i, State.reset.seenAt r i = 0) ∧
  State.reset.rs = .stopped ∧ State.reset.cp = false ∧ State.reset.line = ⟨0#16, false, false, false, false⟩ ∧
  State.reset.statusWord = 0x00#8

/-- A step runs the decoded instruction: with the engine to move (no move listed, or an engine move first) and a byte offered,
an enabled step takes exactly that byte and is the execution of the instruction it decodes to (R71). Where no byte step is
enabled the byte stays with the transport: in STOPPED and FAULTED nothing happens, and at IDLE with a cancel pending the
step is CANCEL_TAKE. -/
def Obligations.StepRunsByte : Prop :=
  ∀ (s : State) (ms : List Move) (b : Byte) (bs : List Byte),
    (s.moves = [] ∧ ms = []) ∨ s.moves = .engine :: ms → s.stream = b :: bs →
    ((s.rs = .idle ∧ s.cp = false) ∨ s.rs = .inLine →
      step s = exec (decodeByte b) { s with moves := ms, stream := bs }) ∧
    (s.rs = .stopped ∨ s.rs = .faulted → step s = .next { s with moves := ms }) ∧
    (s.rs = .idle ∧ s.cp = true → step s = .next { s with moves := ms, rs := .stopped, cp := false })

/-- A step runs the instruction of the port or event that moves next, and takes the move; an offered byte joins the bytes not
consumed yet, at their end, and leaves those as they are (R68, R91, R99; log entry 3). -/
def Obligations.StepRunsInput : Prop :=
  ∀ (s : State) (ms : List Move),
    (∀ p, s.moves = .port p :: ms → step s = exec (decode (.port p)) { s with moves := ms }) ∧
    (∀ e, s.moves = .event e :: ms → step s = exec (decode (.event e)) { s with moves := ms }) ∧
    (∀ b, s.moves = .offer b :: ms → step s = .next { s with moves := ms, stream := s.stream ++ [b] })

/-- Every step keeps the invariant. -/
def Obligations.InvKept : Prop := ∀ s t : State, s.Inv → step s = .next t → t.Inv

/-- The invariant holds at reset. -/
def Obligations.InvAtReset : Prop := State.reset.Inv

/-- R9, R91: with NumReaders = n readers, every step leaves every other reader number without a watermark and without a
SNAPSHOT, and it is so at reset. -/
def Obligations.ReadersBelowKept : Prop :=
  ∀ n : Nat, State.reset.ReadersBelow n ∧
    ∀ s t : State, s.ReadersBelow n → step s = .next t → t.ReadersBelow n

/-- R15, R16, R113: a step changes an entry's log only by an enabled LF of a valid line, which appends the frame's value to
the one entry the frame names, or by RESET. -/
def Obligations.OnlyFramesWrite : Prop :=
  ∀ (s t : State) (i : Index), step s = .next t →
    t.log i = s.log i ∨
    (∃ bs, s.stream = 0x0A#8 :: bs ∧ (s.moves = [] ∨ s.moves.head? = some .engine) ∧
      ((s.rs = .idle ∧ s.cp = false) ∨ s.rs = .inLine) ∧
      (s.line.nz = true ∧ s.line.ovf = false ∧ s.line.bad = false) ∧
      i = idx (frameBank s.line.acc) (frameAddr s.line.acc) ∧ t.log i = s.log i ++ [frameVal s.line.acc]) ∨
    (s.moves.head? = some (.event .reset) ∧ t.log i = [0#8])

/-- R40, R42, as one step: a step that is no RESET leaves every entry's log with what it held at its front, and no reader's
watermark lower. -/
def Obligations.StepCoherence : Prop :=
  ∀ s t : State, s.Inv → step s = .next t → s.moves.head? ≠ some (.event .reset) →
    ∀ (r : Nat) (i : Index), s.log i <+: t.log i ∧ s.seenAt r i ≤ t.seenAt r i

/-- R40, R42: along any run with no RESET, an entry's log only grows at its end and a reader's watermark never goes back. -/
def Obligations.ReaderCoherence : Prop :=
  ∀ (run : Nat → State) (m n : Nat), IsRun run → (run m).Inv → m ≤ n →
    (∀ j, m ≤ j → j < n → (run j).moves.head? ≠ some (.event .reset)) →
    ∀ (r : Nat) (i : Index), (run m).log i <+: (run n).log i ∧ (run m).seenAt r i ≤ (run n).seenAt r i

/-- R107, R111: FAULTED is left only by START, which goes to IDLE, or by RESET, which goes to STOPPED. -/
def Obligations.FaultedLeftBy : Prop :=
  ∀ s t : State, s.rs = .faulted → step s = .next t →
    t.rs = .faulted ∨ (s.moves.head? = some (.event .start) ∧ t.rs = .idle) ∨
    (s.moves.head? = some (.event .reset) ∧ t.rs = .stopped)

/-- R97: nothing but TRANSPORT_FAULT or RESET can disable an enabled CANCEL_TAKE; the engine's own next step takes it, and
no byte is consumed before. That a byte offered meanwhile only joins the end of those offered rests on log entry 3. -/
def Obligations.CancelTakePersists : Prop :=
  ∀ s t : State, s.rs = .idle ∧ s.cp = true → step s = .next t →
    (t.rs = .idle ∧ t.cp = true ∧ s.stream <+: t.stream) ∨
    ((s.moves = [] ∨ s.moves.head? = some .engine) ∧ t.rs = .stopped ∧ t.cp = false ∧ t.stream = s.stream ∧
      t.writes = s.writes) ∨
    s.moves.head? = some (.event .transportFault) ∨ s.moves.head? = some (.event .reset)

/-- R97: under weak fairness of the engine an enabled CANCEL_TAKE is eventually taken, unless a TRANSPORT_FAULT or a RESET
comes. Fairness is the premise `EngineFair`, stated as the model's reading of R97 has it (log entry 22). -/
def Obligations.CancelEventuallyTaken : Prop :=
  ∀ (run : Nat → State) (n : Nat), IsRun run → EngineFair run → (run n).rs = .idle ∧ (run n).cp = true →
    (∀ m, n ≤ m → (run m).moves.head? ≠ some (.event .transportFault) ∧
      (run m).moves.head? ≠ some (.event .reset)) →
    ∃ m, n < m ∧ (run m).rs = .stopped ∧ (run m).cp = false ∧ (run m).writes = (run n).writes

/-- R113, R116: what a step may change is fixed by the agent that takes it. A log changes only in a step of the engine or in the
host's RESET; a reader's watermark only in that reader's step or in RESET; the bytes offered only in a step of the engine or
of the transport; the run state only in a step of the engine, the host or the transport; the cancel state likewise. -/
def Obligations.AgentRights : Prop :=
  ∀ s t : State, step s = .next t →
    (∀ i, t.log i ≠ s.log i → s.mover = .engine ∨ s.moves.head? = some (.event .reset)) ∧
    (∀ r i, t.seenAt r i ≠ s.seenAt r i → s.mover = .reader r ∨ s.moves.head? = some (.event .reset)) ∧
    (t.stream ≠ s.stream → s.mover = .engine ∨ s.mover = .transport) ∧
    (t.rs ≠ s.rs ∨ t.cp ≠ s.cp → s.mover = .engine ∨ s.mover = .host ∨ s.mover = .transport)

/-- R124, R72: in IN_LINE with no byte offered, only TRANSPORT_FAULT or RESET leaves IN_LINE; a CANCEL does not. -/
def Obligations.HeldInLine : Prop :=
  ∀ s t : State, s.rs = .inLine → s.stream = [] → step s = .next t →
    t.rs = .inLine ∨ (s.moves.head? = some (.event .transportFault) ∧ t.rs = .faulted) ∨
    (s.moves.head? = some (.event .reset) ∧ t.rs = .stopped)

/-- R128: a state is quiescent exactly when it is STOPPED or FAULTED, or it parses with no byte offered and not at IDLE with a
cancel pending; with no move of another agent left, the machine stays where it is exactly in the quiescent states. -/
def Obligations.Quiescence : Prop :=
  ∀ s : State,
    (s.quiescent = true ↔
      (s.rs = .stopped ∨ s.rs = .faulted) ∨
      ((s.rs = .idle ∨ s.rs = .inLine) ∧ s.stream = [] ∧ ¬(s.rs = .idle ∧ s.cp = true))) ∧
    (s.moves = [] → (step s = .next s ↔ s.quiescent = true))

/-- R108: a clocked cycle that applies its simultaneous events in the fixed order is one of the admitted interleavings: the
same state as single steps over its events and then one step of the engine. That a cycle sees at most one of each event and
one byte is the model's reading of R108 (log entry 16). -/
def Obligations.ClockedCycle : Prop :=
  ∀ (c : Cycle) (s : State) (ms : List Move),
    stepTimes c.moves.length { s with moves := c.moves ++ ms } = clockedCycle c { s with moves := ms }

/-- R45: a realisation in which every read returns `last(Log[i])` (k = len(L) - 1 always) meets the visibility contract,
eventual visibility with it. Eventual visibility is the named premise `VisFair`, in the form of log entry 22. -/
def Obligations.ImmediateVisibility : Prop :=
  ∀ run : Nat → State, IsRun run →
    (∀ n r i, (run n).nextPos r i = ((run n).log i).length - 1) → VisFair run
end

