-- ==== Sys2Proof/Laws/Decode.lean ====
section
/-!
SUPPORT. Decoding: bit reversal bit by bit, and what a byte of each class decodes to.
-/

namespace Sys2Proof

theorem getLsbD_rev4 (v : BitVec 4) (j : Nat) (h : j < 4) : (rev4 v).getLsbD j = v.getLsbD (3 - j) := by
  simp only [rev4, BitVec.getLsbD_reverse, BitVec.getMsbD_eq_getLsbD]
  simp [h]

theorem getLsbD_rev8 (v : BitVec 8) (j : Nat) (h : j < 8) : (rev8 v).getLsbD j = v.getLsbD (7 - j) := by
  simp only [rev8, BitVec.getLsbD_reverse, BitVec.getMsbD_eq_getLsbD]
  simp [h]

/-- The canonical word bit by bit (R64): the value reversed, the address reversed, the bank bit, three zeros. -/
theorem getLsbD_encodeFrame (bank : Bank) (a : Addr) (v : Byte) (j : Nat) :
    (encodeFrame bank a v).getLsbD j =
      if j < 8 then (rev8 v).getLsbD j
      else if j < 12 then (rev4 a).getLsbD (j - 8)
      else if j = 12 then (bankBit bank).getLsbD 0 else false := by
  unfold encodeFrame
  rw [BitVec.getLsbD_append, BitVec.getLsbD_append, BitVec.getLsbD_append]
  by_cases h8 : j < 8
  · simp [h8]
  · by_cases h12 : j < 12
    · have : j - 8 < 4 := by omega
      simp [h8, h12, this]
    · by_cases h13 : j = 12
      · subst h13
        simp
      · have h1 : ¬ j - 8 < 4 := by omega
        have h2 : ¬ j - 8 - 4 < 1 := by omega
        simp [h8, h12, h13, h1, h2]

/-- Decoding a byte answers a well-formed term, whatever the number of readers: a byte that decodes to OTHER belongs to
class OTHER (R67), and no byte decodes to a reader operation (R68). -/
theorem wellFormed_decodeByte (n : Nat) (b : Byte) : (decodeByte b).WellFormed n = true := by
  have key : ∀ b : Byte, (decodeByte b).WellFormed 0 = true := by decide +kernel
  have h := key b
  cases e : decodeByte b <;> simp_all [Instr.WellFormed]

theorem wellFormed_decodeFrame (n : Nat) (w : Word) : (decodeFrame w).WellFormed n = true := by
  unfold decodeFrame
  split <;> rfl

end Sys2Proof
end

