-- ==== Sys2Proof/Laws/State.lean ====
section
/-!
SUPPORT. What each update of the state leaves in each field, so that no proof unfolds a record update.
-/

namespace Sys2Proof.Machine

/-! ### writeEntry -/

@[simp] theorem State.writeEntry_writes (i : Index) (v : Byte) (s : State) : (s.writeEntry i v).writes = s.writes.set i.toNat (s.written i ++ [v]) (by have := i.isLt; omega) := rfl
@[simp] theorem State.writeEntry_seen (i : Index) (v : Byte) (s : State) : (s.writeEntry i v).seen = s.seen := rfl
@[simp] theorem State.writeEntry_rs (i : Index) (v : Byte) (s : State) : (s.writeEntry i v).rs = s.rs := rfl
@[simp] theorem State.writeEntry_line (i : Index) (v : Byte) (s : State) : (s.writeEntry i v).line = s.line := rfl
@[simp] theorem State.writeEntry_cp (i : Index) (v : Byte) (s : State) : (s.writeEntry i v).cp = s.cp := rfl
@[simp] theorem State.writeEntry_stream (i : Index) (v : Byte) (s : State) : (s.writeEntry i v).stream = s.stream := rfl
@[simp] theorem State.writeEntry_moves (i : Index) (v : Byte) (s : State) : (s.writeEntry i v).moves = s.moves := rfl
@[simp] theorem State.writeEntry_snaps (i : Index) (v : Byte) (s : State) : (s.writeEntry i v).snaps = s.snaps := rfl
@[simp] theorem State.writeEntry_replies (i : Index) (v : Byte) (s : State) : (s.writeEntry i v).replies = s.replies := rfl
@[simp] theorem State.writeEntry_draws (i : Index) (v : Byte) (s : State) : (s.writeEntry i v).draws = s.draws := rfl

/-! ### readEntryAt -/

@[simp] theorem State.readEntryAt_writes (r : Nat) (i : Index) (k : Nat) (s : State) : (s.readEntryAt r i k).writes = s.writes := rfl
@[simp] theorem State.readEntryAt_seen (r : Nat) (i : Index) (k : Nat) (s : State) : (s.readEntryAt r i k).seen = Table.set 0 s.seen (seenKey r i) k := rfl
@[simp] theorem State.readEntryAt_rs (r : Nat) (i : Index) (k : Nat) (s : State) : (s.readEntryAt r i k).rs = s.rs := rfl
@[simp] theorem State.readEntryAt_line (r : Nat) (i : Index) (k : Nat) (s : State) : (s.readEntryAt r i k).line = s.line := rfl
@[simp] theorem State.readEntryAt_cp (r : Nat) (i : Index) (k : Nat) (s : State) : (s.readEntryAt r i k).cp = s.cp := rfl
@[simp] theorem State.readEntryAt_stream (r : Nat) (i : Index) (k : Nat) (s : State) : (s.readEntryAt r i k).stream = s.stream := rfl
@[simp] theorem State.readEntryAt_moves (r : Nat) (i : Index) (k : Nat) (s : State) : (s.readEntryAt r i k).moves = s.moves := rfl
@[simp] theorem State.readEntryAt_snaps (r : Nat) (i : Index) (k : Nat) (s : State) : (s.readEntryAt r i k).snaps = s.snaps := rfl
@[simp] theorem State.readEntryAt_replies (r : Nat) (i : Index) (k : Nat) (s : State) : (s.readEntryAt r i k).replies = .entry r i ((s.log i).getD k 0#8) :: s.replies := rfl
@[simp] theorem State.readEntryAt_draws (r : Nat) (i : Index) (k : Nat) (s : State) : (s.readEntryAt r i k).draws = s.draws := rfl

/-! ### readEntry -/

@[simp] theorem State.readEntry_writes (r : Nat) (i : Index) (s : State) : (s.readEntry r i).writes = s.writes := rfl
@[simp] theorem State.readEntry_seen (r : Nat) (i : Index) (s : State) : (s.readEntry r i).seen = Table.set 0 s.seen (seenKey r i) (s.nextPos r i) := rfl
@[simp] theorem State.readEntry_rs (r : Nat) (i : Index) (s : State) : (s.readEntry r i).rs = s.rs := rfl
@[simp] theorem State.readEntry_line (r : Nat) (i : Index) (s : State) : (s.readEntry r i).line = s.line := rfl
@[simp] theorem State.readEntry_cp (r : Nat) (i : Index) (s : State) : (s.readEntry r i).cp = s.cp := rfl
@[simp] theorem State.readEntry_stream (r : Nat) (i : Index) (s : State) : (s.readEntry r i).stream = s.stream := rfl
@[simp] theorem State.readEntry_moves (r : Nat) (i : Index) (s : State) : (s.readEntry r i).moves = s.moves := rfl
@[simp] theorem State.readEntry_snaps (r : Nat) (i : Index) (s : State) : (s.readEntry r i).snaps = s.snaps := rfl
@[simp] theorem State.readEntry_replies (r : Nat) (i : Index) (s : State) : (s.readEntry r i).replies = .entry r i (s.readValue r i) :: s.replies := rfl
@[simp] theorem State.readEntry_draws (r : Nat) (i : Index) (s : State) : (s.readEntry r i).draws = s.draws + 1 := rfl

/-! ### endLine -/

@[simp] theorem State.endLine_writes (s : State) : (s.endLine).writes = s.writes := rfl
@[simp] theorem State.endLine_seen (s : State) : (s.endLine).seen = s.seen := rfl
@[simp] theorem State.endLine_rs (s : State) : (s.endLine).rs = RunState.idle := rfl
@[simp] theorem State.endLine_line (s : State) : (s.endLine).line = Line.clear := rfl
@[simp] theorem State.endLine_cp (s : State) : (s.endLine).cp = s.cp := rfl
@[simp] theorem State.endLine_stream (s : State) : (s.endLine).stream = s.stream := rfl
@[simp] theorem State.endLine_moves (s : State) : (s.endLine).moves = s.moves := rfl
@[simp] theorem State.endLine_snaps (s : State) : (s.endLine).snaps = s.snaps := rfl
@[simp] theorem State.endLine_replies (s : State) : (s.endLine).replies = s.replies := rfl
@[simp] theorem State.endLine_draws (s : State) : (s.endLine).draws = s.draws := rfl

/-! ### raise_malformedFrame -/

@[simp] theorem State.raise_malformedFrame_writes (c : MalformedCause) (s : State) : (s.raise (.malformedFrame c)).writes = s.writes := rfl
@[simp] theorem State.raise_malformedFrame_seen (c : MalformedCause) (s : State) : (s.raise (.malformedFrame c)).seen = s.seen := rfl
@[simp] theorem State.raise_malformedFrame_rs (c : MalformedCause) (s : State) : (s.raise (.malformedFrame c)).rs = RunState.idle := rfl
@[simp] theorem State.raise_malformedFrame_line (c : MalformedCause) (s : State) : (s.raise (.malformedFrame c)).line = Line.clear := rfl
@[simp] theorem State.raise_malformedFrame_cp (c : MalformedCause) (s : State) : (s.raise (.malformedFrame c)).cp = s.cp := rfl
@[simp] theorem State.raise_malformedFrame_stream (c : MalformedCause) (s : State) : (s.raise (.malformedFrame c)).stream = s.stream := rfl
@[simp] theorem State.raise_malformedFrame_moves (c : MalformedCause) (s : State) : (s.raise (.malformedFrame c)).moves = s.moves := rfl
@[simp] theorem State.raise_malformedFrame_snaps (c : MalformedCause) (s : State) : (s.raise (.malformedFrame c)).snaps = s.snaps := rfl
@[simp] theorem State.raise_malformedFrame_replies (c : MalformedCause) (s : State) : (s.raise (.malformedFrame c)).replies = s.replies := rfl
@[simp] theorem State.raise_malformedFrame_draws (c : MalformedCause) (s : State) : (s.raise (.malformedFrame c)).draws = s.draws := rfl

/-! ### raise_transportFault -/

@[simp] theorem State.raise_transportFault_writes (s : State) : (s.raise .transportFault).writes = s.writes := rfl
@[simp] theorem State.raise_transportFault_seen (s : State) : (s.raise .transportFault).seen = s.seen := rfl
@[simp] theorem State.raise_transportFault_rs (s : State) : (s.raise .transportFault).rs = RunState.faulted := rfl
@[simp] theorem State.raise_transportFault_line (s : State) : (s.raise .transportFault).line = Line.clear := rfl
@[simp] theorem State.raise_transportFault_cp (s : State) : (s.raise .transportFault).cp = false := rfl
@[simp] theorem State.raise_transportFault_stream (s : State) : (s.raise .transportFault).stream = s.stream := rfl
@[simp] theorem State.raise_transportFault_moves (s : State) : (s.raise .transportFault).moves = s.moves := rfl
@[simp] theorem State.raise_transportFault_snaps (s : State) : (s.raise .transportFault).snaps = s.snaps := rfl
@[simp] theorem State.raise_transportFault_replies (s : State) : (s.raise .transportFault).replies = s.replies := rfl
@[simp] theorem State.raise_transportFault_draws (s : State) : (s.raise .transportFault).draws = s.draws := rfl

/-! ### resume -/

@[simp] theorem State.resume_writes (s : State) : (s.resume).writes = s.writes := rfl
@[simp] theorem State.resume_seen (s : State) : (s.resume).seen = s.seen := rfl
@[simp] theorem State.resume_rs (s : State) : (s.resume).rs = RunState.idle := rfl
@[simp] theorem State.resume_line (s : State) : (s.resume).line = Line.clear := rfl
@[simp] theorem State.resume_cp (s : State) : (s.resume).cp = false := rfl
@[simp] theorem State.resume_stream (s : State) : (s.resume).stream = s.stream := rfl
@[simp] theorem State.resume_moves (s : State) : (s.resume).moves = s.moves := rfl
@[simp] theorem State.resume_snaps (s : State) : (s.resume).snaps = s.snaps := rfl
@[simp] theorem State.resume_replies (s : State) : (s.resume).replies = s.replies := rfl
@[simp] theorem State.resume_draws (s : State) : (s.resume).draws = s.draws := rfl

/-! ### resetBlock -/

@[simp] theorem State.resetBlock_writes (s : State) : (s.resetBlock).writes = Vector.replicate 32 [] := rfl
@[simp] theorem State.resetBlock_seen (s : State) : (s.resetBlock).seen = [] := rfl
@[simp] theorem State.resetBlock_rs (s : State) : (s.resetBlock).rs = RunState.stopped := rfl
@[simp] theorem State.resetBlock_line (s : State) : (s.resetBlock).line = Line.clear := rfl
@[simp] theorem State.resetBlock_cp (s : State) : (s.resetBlock).cp = false := rfl
@[simp] theorem State.resetBlock_stream (s : State) : (s.resetBlock).stream = s.stream := rfl
@[simp] theorem State.resetBlock_moves (s : State) : (s.resetBlock).moves = s.moves := rfl
@[simp] theorem State.resetBlock_snaps (s : State) : (s.resetBlock).snaps = s.snaps := rfl
@[simp] theorem State.resetBlock_replies (s : State) : (s.resetBlock).replies = s.replies := rfl
@[simp] theorem State.resetBlock_draws (s : State) : (s.resetBlock).draws = s.draws := rfl

/-! ### inLineWith -/

@[simp] theorem State.inLineWith_writes (l : Line) (s : State) : (s.inLineWith l).writes = s.writes := rfl
@[simp] theorem State.inLineWith_seen (l : Line) (s : State) : (s.inLineWith l).seen = s.seen := rfl
@[simp] theorem State.inLineWith_rs (l : Line) (s : State) : (s.inLineWith l).rs = RunState.inLine := rfl
@[simp] theorem State.inLineWith_line (l : Line) (s : State) : (s.inLineWith l).line = l := rfl
@[simp] theorem State.inLineWith_cp (l : Line) (s : State) : (s.inLineWith l).cp = s.cp := rfl
@[simp] theorem State.inLineWith_stream (l : Line) (s : State) : (s.inLineWith l).stream = s.stream := rfl
@[simp] theorem State.inLineWith_moves (l : Line) (s : State) : (s.inLineWith l).moves = s.moves := rfl
@[simp] theorem State.inLineWith_snaps (l : Line) (s : State) : (s.inLineWith l).snaps = s.snaps := rfl
@[simp] theorem State.inLineWith_replies (l : Line) (s : State) : (s.inLineWith l).replies = s.replies := rfl
@[simp] theorem State.inLineWith_draws (l : Line) (s : State) : (s.inLineWith l).draws = s.draws := rfl

/-! ### storeSnap -/

@[simp] theorem State.storeSnap_writes (r : Nat) (t : Vector (Option Byte) 32) (s : State) :
    (s.storeSnap r t).writes = s.writes := by unfold State.storeSnap; split <;> rfl
@[simp] theorem State.storeSnap_seen (r : Nat) (t : Vector (Option Byte) 32) (s : State) :
    (s.storeSnap r t).seen = s.seen := by unfold State.storeSnap; split <;> rfl
@[simp] theorem State.storeSnap_rs (r : Nat) (t : Vector (Option Byte) 32) (s : State) :
    (s.storeSnap r t).rs = s.rs := by unfold State.storeSnap; split <;> rfl
@[simp] theorem State.storeSnap_line (r : Nat) (t : Vector (Option Byte) 32) (s : State) :
    (s.storeSnap r t).line = s.line := by unfold State.storeSnap; split <;> rfl
@[simp] theorem State.storeSnap_cp (r : Nat) (t : Vector (Option Byte) 32) (s : State) :
    (s.storeSnap r t).cp = s.cp := by unfold State.storeSnap; split <;> rfl
@[simp] theorem State.storeSnap_stream (r : Nat) (t : Vector (Option Byte) 32) (s : State) :
    (s.storeSnap r t).stream = s.stream := by unfold State.storeSnap; split <;> rfl
@[simp] theorem State.storeSnap_moves (r : Nat) (t : Vector (Option Byte) 32) (s : State) :
    (s.storeSnap r t).moves = s.moves := by unfold State.storeSnap; split <;> rfl
@[simp] theorem State.storeSnap_draws (r : Nat) (t : Vector (Option Byte) 32) (s : State) :
    (s.storeSnap r t).draws = s.draws := by unfold State.storeSnap; split <;> rfl

/-- A snapshot's table stays in its reader's hands until its last entry is read. -/
theorem State.storeSnap_snaps (r : Nat) (t : Vector (Option Byte) 32) (s : State) :
    (s.storeSnap r t).snaps = Table.set noReads s.snaps r (if unread t = [] then noReads else t) := by
  unfold State.storeSnap; split <;> rfl

/-- The table is handed over exactly when nothing is left to read. -/
theorem State.storeSnap_replies (r : Nat) (t : Vector (Option Byte) 32) (s : State) :
    (s.storeSnap r t).replies = if unread t = [] then .table r (snapTable t) :: s.replies else s.replies := by
  unfold State.storeSnap; split <;> rfl

/-! ### What is computed from one field follows that field -/

theorem State.log_congr {s t : State} (h : t.writes = s.writes) (i : Index) : t.log i = s.log i := by
  simp [State.log, State.written, h]

theorem State.rf_congr {s t : State} (h : t.writes = s.writes) (i : Index) : t.rf i = s.rf i := by
  simp [State.rf, State.written, h]

theorem State.seenAt_congr {s t : State} (h : t.seen = s.seen) (r : Nat) (i : Index) : t.seenAt r i = s.seenAt r i := by
  simp [State.seenAt, h]

theorem State.snapOf_congr {s t : State} (h : t.snaps = s.snaps) (r : Nat) : t.snapOf r = s.snapOf r := by
  simp [State.snapOf, h]

theorem State.statusWord_congr {s t : State} (hr : t.rs = s.rs) (hc : t.cp = s.cp) : t.statusWord = s.statusWord := by
  simp [State.statusWord, hr, hc]

end Sys2Proof.Machine
end

