-- ==== Sys2Proof/Laws/Table.lean ====
section
/-!
SUPPORT. The sparse tables: a read after a write, and that a write keeps the canonical form.
-/

namespace Sys2Proof.Machine

variable {α : Type} [DecidableEq α] {d : α}

omit [DecidableEq α] in
theorem Table.get_of_above {t : List (Nat × α)} {n k : Nat} (h : Table.above n t = true) (hk : k ≤ n) :
    Table.get d t k = d := by
  induction t with
  | nil => rfl
  | cons e t ih =>
    simp only [Table.above, List.all_cons, Bool.and_eq_true, decide_eq_true_eq] at h
    simp only [Table.get]
    rw [if_neg (by omega)]
    exact ih h.2

/-- A write leaves every other key alone, in any table. -/
theorem Table.get_set_other {t : List (Nat × α)} {k j : Nat} {v : α} (h : j ≠ k) :
    Table.get d (Table.set d t k v) j = Table.get d t j := by
  induction t with
  | nil => simp only [Table.set]; split <;> simp [Table.get, Ne.symm h]
  | cons e t ih =>
    simp only [Table.set]
    split
    · split
      · rfl
      · simp [Table.get, Ne.symm h]
    · split
      · rename_i hk
        split <;> simp [Table.get, Ne.symm h, ← hk]
      · simp only [Table.get]
        split
        · rfl
        · exact ih

/-- A read after a write to the same key, in a table of the canonical form. -/
theorem Table.get_set_same {t : List (Nat × α)} (k : Nat) (v : α) (h : Table.wf d t = true) :
    Table.get d (Table.set d t k v) k = v := by
  induction t with
  | nil => by_cases hv : v = d <;> simp [Table.set, Table.get, hv]
  | cons e t ih =>
    simp only [Table.wf, Bool.and_eq_true, decide_eq_true_eq] at h
    simp only [Table.set]
    split
    · rename_i hlt
      split
      · rename_i hv
        rw [hv]
        simp only [Table.get]
        rw [if_neg (by omega)]
        exact Table.get_of_above h.1.2 (by omega)
      · simp [Table.get]
    · split
      · rename_i hk
        split
        · rename_i hv
          rw [hv]
          exact Table.get_of_above h.1.2 (by omega)
        · simp [Table.get]
      · rename_i hk
        simp only [Table.get]
        rw [if_neg (Ne.symm hk)]
        exact ih h.2

theorem Table.above_set {t : List (Nat × α)} {n k : Nat} {v : α} (h : Table.above n t = true) (hk : n < k) :
    Table.above n (Table.set d t k v) = true := by
  induction t with
  | nil => simp only [Table.set]; split <;> simp [Table.above, hk]
  | cons e t ih =>
    have h' := h
    simp only [Table.above, List.all_cons, Bool.and_eq_true, decide_eq_true_eq] at h'
    simp only [Table.set]
    split
    · split
      · exact h
      · simp only [Table.above, List.all_cons, Bool.and_eq_true, decide_eq_true_eq]
        exact ⟨hk, h'.1, h'.2⟩
    · split
      · split
        · exact h'.2
        · simp only [Table.above, List.all_cons, Bool.and_eq_true, decide_eq_true_eq]
          exact ⟨hk, h'.2⟩
      · have := ih h'.2
        simp only [Table.above, List.all_cons, Bool.and_eq_true, decide_eq_true_eq] at this ⊢
        exact ⟨h'.1, this⟩

omit [DecidableEq α] in
theorem Table.above_mono {t : List (Nat × α)} {m n : Nat} (hmn : m ≤ n) (h : Table.above n t = true) :
    Table.above m t = true := by
  simp only [Table.above, List.all_eq_true, decide_eq_true_eq] at h ⊢
  exact fun e he => Nat.lt_of_le_of_lt hmn (h e he)

/-- A write keeps the canonical form. -/
theorem Table.wf_set {t : List (Nat × α)} (k : Nat) (v : α) (h : Table.wf d t = true) :
    Table.wf d (Table.set d t k v) = true := by
  induction t with
  | nil => by_cases hv : v = d <;> simp [Table.set, Table.wf, Table.above, hv]
  | cons e t ih =>
    have h' := h
    simp only [Table.wf, Bool.and_eq_true, decide_eq_true_eq] at h'
    simp only [Table.set]
    split
    · rename_i hlt
      split
      · exact h
      · rename_i hv
        simp only [Table.wf, Bool.and_eq_true, decide_eq_true_eq]
        refine ⟨⟨hv, ?_⟩, h'⟩
        simp only [Table.above, List.all_cons, Bool.and_eq_true, decide_eq_true_eq]
        exact ⟨hlt, Table.above_mono (Nat.le_of_lt hlt) h'.1.2⟩
    · split
      · rename_i hk
        split
        · exact h'.2
        · rename_i hv
          simp only [Table.wf, Bool.and_eq_true, decide_eq_true_eq]
          exact ⟨⟨hv, hk ▸ h'.1.2⟩, h'.2⟩
      · simp only [Table.wf, Bool.and_eq_true, decide_eq_true_eq]
        exact ⟨⟨h'.1.1, Table.above_set h'.1.2 (by omega)⟩, ih h'.2⟩

/-- The empty table is in the canonical form, and reads as the default everywhere. -/
@[simp] theorem Table.wf_nil : Table.wf d ([] : List (Nat × α)) = true := rfl

omit [DecidableEq α] in
@[simp] theorem Table.get_nil (k : Nat) : Table.get d ([] : List (Nat × α)) k = d := rfl

end Sys2Proof.Machine
end

