-- ==== Sys2Proof/Laws/Ops.lean ====
section
/-!
SUPPORT. What each shared operation does, once, so that a proof cites it and does not unfold the operation.
-/

namespace Sys2Proof.Machine

/-! ### Indices -/

theorem index_toNat_lt (i : Index) : i.toNat < 32 := i.isLt

theorem mem_allIndices (i : Index) : i ∈ allIndices := by
  simp only [allIndices, List.mem_map, List.mem_range]
  exact ⟨i.toNat, i.isLt, by simp⟩

theorem seenKey_inj {r r' : Nat} {i i' : Index} : seenKey r i = seenKey r' i' ↔ r = r' ∧ i = i' := by
  have h := i.isLt
  have h' := i'.isLt
  constructor
  · intro e
    simp only [seenKey] at e
    exact ⟨by omega, BitVec.eq_of_toNat_eq (by omega)⟩
  · rintro ⟨rfl, rfl⟩
    rfl

/-! ### The register file -/

theorem State.log_ne_nil (s : State) (i : Index) : s.log i ≠ [] := by simp [State.log]

theorem State.log_length (s : State) (i : Index) : (s.log i).length = (s.written i).length + 1 := by simp [State.log]

/-- The register file is the last element of each log (R18). -/
theorem State.log_getLast? (s : State) (i : Index) : (s.log i).getLast? = some (s.rf i) := by
  simp only [State.log, State.rf, List.getLast?_cons]

theorem State.written_writeEntry (i j : Index) (v : Byte) (s : State) :
    (s.writeEntry i v).written j = if j = i then s.written i ++ [v] else s.written j := by
  simp only [State.written, State.writeEntry_writes, Vector.getElem_set]
  by_cases h : j = i
  · simp [h]
  · have : i.toNat ≠ j.toNat := fun e => h (BitVec.eq_of_toNat_eq e.symm)
    simp [h, this]

/-- A write appends to its own entry's log and to no other (R18, R88). -/
theorem State.log_writeEntry (i j : Index) (v : Byte) (s : State) :
    (s.writeEntry i v).log j = if j = i then s.log i ++ [v] else s.log j := by
  simp only [State.log, State.written_writeEntry]
  split <;> simp

/-- A write replaces its own entry's value and no other (R88). -/
theorem State.rf_writeEntry (i j : Index) (v : Byte) (s : State) :
    (s.writeEntry i v).rf j = if j = i then v else s.rf j := by
  simp only [State.rf, State.written_writeEntry]
  split <;> simp

/-- After RESET every log holds the initial 0 alone (R118). -/
@[simp] theorem State.log_resetBlock (s : State) (i : Index) : s.resetBlock.log i = [0#8] := by
  simp [State.log, State.written]

@[simp] theorem State.log_reset (i : Index) : State.reset.log i = [0#8] := by
  simp [State.log, State.written, State.reset]

/-! ### Reads -/

/-- Where there is a position to draw, the draw lies in the admitted range (R43). -/
theorem pickPos_range {x lo len : Nat} (h : lo < len) : lo ≤ pickPos x lo len ∧ pickPos x lo len < len := by
  have := Nat.mod_lt x (show 0 < len - lo by omega)
  simp only [pickPos, if_pos h]
  omega

/-- Any draw is a position of a log that is not empty. -/
theorem pickPos_lt {x lo len : Nat} (h : 0 < len) : pickPos x lo len < len := by
  unfold pickPos
  split
  · have := Nat.mod_lt x (show 0 < len - lo by omega)
    omega
  · omega

theorem State.nextPos_lt (s : State) (r : Nat) (i : Index) : s.nextPos r i < (s.log i).length :=
  pickPos_lt (by simp [State.log])

/-- A read returns an element of the entry's log: no torn or thin-air value (R35, R43). -/
theorem State.readValue_mem (s : State) (r : Nat) (i : Index) : s.readValue r i ∈ s.log i := by
  have h := s.nextPos_lt r i
  simp only [State.readValue, List.getD_eq_getElem?_getD, List.getElem?_eq_getElem h, Option.getD_some]
  exact List.getElem_mem h

theorem State.seenAt_readEntry_other {r r' : Nat} {i i' : Index} (s : State) (h : ¬(r' = r ∧ i' = i)) :
    (s.readEntry r i).seenAt r' i' = s.seenAt r' i' :=
  Table.get_set_other fun e => h (seenKey_inj.mp e)

theorem State.seenAt_readEntry_same (r : Nat) (i : Index) {s : State} (h : Table.wf 0 s.seen = true) :
    (s.readEntry r i).seenAt r i = s.nextPos r i :=
  Table.get_set_same _ _ h

/-! ### Snapshots -/

theorem snapGet_snapSet (t : Vector (Option Byte) 32) (i j : Index) (v : Byte) :
    snapGet (snapSet t i v) j = if j = i then some v else snapGet t j := by
  simp only [snapGet, snapSet, Vector.getElem_set]
  by_cases h : j = i
  · simp [h]
  · have : i.toNat ≠ j.toNat := fun e => h (BitVec.eq_of_toNat_eq e.symm)
    simp [h, this]

theorem mem_unread {t : Vector (Option Byte) 32} {i : Index} : i ∈ unread t ↔ snapGet t i = none := by
  simp [unread, mem_allIndices]

/-- Of a SNAPSHOT that has read nothing, no entry is read. -/
@[simp] theorem snapGet_noReads (i : Index) : snapGet noReads i = none := by simp [snapGet, noReads]

/-- A SNAPSHOT that has read nothing has an entry to read. -/
theorem unread_noReads : unread noReads ≠ [] := List.ne_nil_of_mem (mem_unread.mpr (snapGet_noReads 0#5))

/-- The next index of a SNAPSHOT that has entries left is one of them (R93). -/
theorem State.nextIndex_mem (s : State) (r : Nat) (h : unread (s.snapOf r) ≠ []) : s.nextIndex r ∈ unread (s.snapOf r) := by
  have hl : Config.orderDraw s.draws % (unread (s.snapOf r)).length < (unread (s.snapOf r)).length :=
    Nat.mod_lt _ (List.length_pos_iff.mpr h)
  simp only [State.nextIndex, List.getD_eq_getElem?_getD, List.getElem?_eq_getElem hl, Option.getD_some]
  exact List.getElem_mem hl

/-- A SNAPSHOT step changes the watermarks, its own table, the answers and the draw counter, and nothing else (R37). -/
theorem State.snapshotRead_eq (r : Nat) (s : State) :
    s.snapshotRead r =
      { s with
        seen := (s.snapshotRead r).seen, snaps := (s.snapshotRead r).snaps, replies := (s.snapshotRead r).replies
        draws := s.draws + 1 } := by
  unfold State.snapshotRead State.storeSnap
  split <;> rfl

/-- A SNAPSHOT step's watermarks are those of one ReadEntry (R44). -/
theorem State.seen_snapshotRead (r : Nat) (s : State) :
    (s.snapshotRead r).seen = (s.readEntry r (s.nextIndex r)).seen := by simp [State.snapshotRead]

/-- A SNAPSHOT step changes no other reader's table. -/
theorem State.snapOf_snapshotRead_other {r r' : Nat} (s : State) (h : r' ≠ r) :
    (s.snapshotRead r).snapOf r' = s.snapOf r' := by
  simp only [State.snapOf, State.snapshotRead, State.storeSnap_snaps]
  rw [Table.get_set_other h]
  rfl

/-- A SNAPSHOT step leaves its own reader the table with one more entry read, or none once T has been handed over. -/
theorem State.snapOf_snapshotRead_same (r : Nat) {s : State} (h : Table.wf noReads s.snaps = true) :
    (s.snapshotRead r).snapOf r =
      if unread (snapSet (s.snapOf r) (s.nextIndex r) (s.readValue r (s.nextIndex r))) = [] then noReads
      else snapSet (s.snapOf r) (s.nextIndex r) (s.readValue r (s.nextIndex r)) := by
  simp only [State.snapshotRead]
  exact (congrArg (fun t => Table.get noReads t r) (State.storeSnap_snaps _ _ _)).trans (Table.get_set_same r _ h)

/-! ### Enabling -/

/-- CANCEL_TAKE's enabling condition (R97). -/
theorem State.takeEnabled_iff (s : State) : s.takeEnabled = true ↔ s.rs = .idle ∧ s.cp = true := by
  simp [State.takeEnabled]

/-- The byte step's enabling condition (R71). -/
theorem State.byteEnabled_iff (s : State) : s.byteEnabled = true ↔ (s.rs = .idle ∧ s.cp = false) ∨ s.rs = .inLine := by
  unfold State.byteEnabled State.takeEnabled
  cases s.rs <;> cases s.cp <;> decide

theorem State.byteEnabled_eq_false_iff (s : State) :
    s.byteEnabled = false ↔ s.rs = .stopped ∨ s.rs = .faulted ∨ (s.rs = .idle ∧ s.cp = true) := by
  unfold State.byteEnabled State.takeEnabled
  cases s.rs <;> cases s.cp <;> decide

theorem RunState.parsing_iff (r : RunState) : r.parsing = true ↔ r = .idle ∨ r = .inLine := by cases r <;> decide

/-- No byte step is enabled while the cancel-take is (R97). -/
theorem State.takeEnabled_of_byteEnabled {s : State} (h : s.byteEnabled = true) : s.takeEnabled = false := by
  simp only [State.byteEnabled, Bool.and_eq_true, Bool.not_eq_true'] at h
  exact h.2

/-! ### Fetching -/

theorem State.engineFetch_take {s : State} (h : s.takeEnabled = true) : s.engineFetch = .run .cancelTake s := by
  simp [State.engineFetch, h]

theorem State.engineFetch_byte {s : State} {b : Byte} {bs : List Byte} (h : s.byteEnabled = true)
    (hs : s.stream = b :: bs) : s.engineFetch = .run (decodeByte b) { s with stream := bs } := by
  unfold State.engineFetch
  rw [State.takeEnabled_of_byteEnabled h, h, hs]
  rfl

theorem State.engineFetch_hold {s : State} (ht : s.takeEnabled = false) (h : s.byteEnabled = false ∨ s.stream = []) :
    s.engineFetch = .hold s := by
  unfold State.engineFetch
  rw [ht]
  obtain h | h := h
  · rw [h]
    rfl
  · rw [h]
    cases s.byteEnabled <;> rfl

/-- The engine's turn, in full: it takes the cancel, or the byte offered, or holds (R71, R72, R97). -/
theorem State.engineFetch_cases (s : State) :
    (s.takeEnabled = true ∧ s.engineFetch = .run .cancelTake s) ∨
    (∃ b bs, s.byteEnabled = true ∧ s.stream = b :: bs ∧
      s.engineFetch = .run (decodeByte b) { s with stream := bs }) ∨
    (s.takeEnabled = false ∧ (s.byteEnabled = false ∨ s.stream = []) ∧ s.engineFetch = .hold s) := by
  cases ht : s.takeEnabled with
  | true => exact .inl ⟨rfl, State.engineFetch_take ht⟩
  | false =>
    cases hb : s.byteEnabled with
    | false => exact .inr (.inr ⟨rfl, .inl rfl, State.engineFetch_hold ht (.inl hb)⟩)
    | true =>
      cases hs : s.stream with
      | nil => exact .inr (.inr ⟨rfl, .inr rfl, State.engineFetch_hold ht (.inr hs)⟩)
      | cons b bs => exact .inr (.inl ⟨b, bs, rfl, rfl, State.engineFetch_byte hb hs⟩)

/-- The engine moves when no move is listed and when an engine move is next. -/
theorem State.fetch_engine {s : State} {ms : List Move} (h : (s.moves = [] ∧ ms = []) ∨ s.moves = .engine :: ms) :
    s.fetch = ({ s with moves := ms } : State).engineFetch := by
  unfold State.fetch
  obtain ⟨h, rfl⟩ | h := h
  · cases s
    simp only at h
    subst h
    rfl
  · rw [h]

/-- Which move is next, in full. -/
theorem State.fetch_cases (s : State) :
    (∃ ms, ((s.moves = [] ∧ ms = []) ∨ s.moves = .engine :: ms) ∧
      s.fetch = ({ s with moves := ms } : State).engineFetch) ∨
    (∃ b ms, s.moves = .offer b :: ms ∧ s.fetch = .hold { s with moves := ms, stream := s.stream ++ [b] }) ∨
    (∃ p ms, s.moves = .port p :: ms ∧ s.fetch = .run (decodePort p) { s with moves := ms }) ∨
    (∃ e ms, s.moves = .event e :: ms ∧ s.fetch = .run (decodeEvent e) { s with moves := ms }) := by
  cases h : s.moves with
  | nil => exact .inl ⟨[], .inl ⟨rfl, rfl⟩, State.fetch_engine (.inl ⟨h, rfl⟩)⟩
  | cons m ms =>
    cases m with
    | engine => exact .inl ⟨ms, .inr rfl, State.fetch_engine (.inr h)⟩
    | offer b => exact .inr (.inl ⟨b, ms, rfl, by unfold State.fetch; rw [h]⟩)
    | port p => exact .inr (.inr (.inl ⟨p, ms, rfl, by unfold State.fetch; rw [h]⟩))
    | event e => exact .inr (.inr (.inr ⟨e, ms, rfl, by unfold State.fetch; rw [h]⟩))

/-! ### Running -/

theorem whenEnabled_of {e : Bool} (h : e = true) (s t : State) : whenEnabled e s t = .next t := by simp [whenEnabled, h]

theorem whenEnabled_of_not {e : Bool} (h : e = false) (s t : State) : whenEnabled e s t = .next s := by
  simp [whenEnabled, h]

/-- An operation run where it is enabled answers the one state or the other. -/
theorem whenEnabled_cases {e : Bool} {s t u : State} (h : whenEnabled e s t = .next u) :
    (e = true ∧ u = t) ∨ (e = false ∧ u = s) := by
  cases e <;> simp_all [whenEnabled]

/-- Running one operation after another answers a next state only through a next state of the first. -/
theorem andThen_next {o : Host.Outcome State Fault Refusal} {f : State → Host.Outcome State Fault Refusal} {u : State}
    (h : andThen o f = .next u) : ∃ t, o = .next t ∧ f t = .next u := by
  cases o with
  | next t => exact ⟨t, rfl, h⟩
  | fault r => cases h
  | refused r => cases h

/-- ExecuteFrame is one write of the decoded entry (R84, R85, R90). -/
theorem executeFrame_eq (w : Word) (s : State) :
    executeFrame w s = .next (s.writeEntry (idx (frameBank w) (frameAddr w)) (frameVal w)) := by
  unfold executeFrame
  cases h : frameBank w <;> simp [execWra, execWrb]

/-- The effect of an enabled LF: a valid line writes one entry, a malformed line none, and both end the line (R77, R103). -/
theorem endOfLine_eq (s : State) :
    endOfLine s = match s.line.verdict with
      | .frame w => .next (s.writeEntry (idx (frameBank w) (frameAddr w)) (frameVal w)).endLine
      | .malformed _ => .next s.endLine := by
  unfold endOfLine
  cases h : s.line.verdict with
  | frame w => simp [executeFrame_eq, andThen]
  | malformed c => rfl

end Sys2Proof.Machine
end

