-- ==== Sys2Proof/Laws/PerInstr.lean ====
section
/-!
SUPPORT. One family of facts about every instruction as syntax: the bits its encoding puts in the data stream match the
mask and the match value of its own row of spec/opcode_table.json (R65, R67), and an instruction of a row without bits
puts none there (R68).
-/

namespace Sys2Proof.Laws.RowMatch

/-- The encoded bits match the instruction's own row, for every operand; no bits where the row has none. -/
def Statement (i : Instr) : Prop :=
  (encode i).bits.map (fun b => decide (b &&& ((i.row.map Row.mask).getD 0) = (i.row.map Row.value).getD 0))
    = i.row.map fun _ => true

theorem frame_bit12 (bank : Bank) (a : Addr) (v : Byte) :
    (encodeFrame bank a v).toNat &&& 0x1000 = if bank = .a then 0x1000 else 0 := by
  have h : encodeFrame bank a v &&& 0x1000#16 = if bank = .a then 0x1000#16 else 0#16 := by
    apply BitVec.eq_of_getLsbD_eq
    intro j hj
    rw [BitVec.getLsbD_and, getLsbD_encodeFrame]
    cases bank <;> interval_cases j <;> simp [bankBit]
  have := congrArg BitVec.toNat h
  rw [BitVec.toNat_and] at this
  rw [show (0x1000#16).toNat = 0x1000 from rfl] at this
  rw [this]
  split <;> rfl

theorem wra (a : Addr) (v : Byte) : Statement (.wra a v) := by
  simp [Statement, encode, Encoding.bits, Instr.row, frame_bit12]

theorem wrb (a : Addr) (v : Byte) : Statement (.wrb a v) := by
  simp [Statement, encode, Encoding.bits, Instr.row, frame_bit12]

theorem hex07 (d : BitVec 3) : Statement (.hex07 d) := by revert d; unfold Statement; decide

theorem hex89 (d : BitVec 1) : Statement (.hex89 d) := by revert d; unfold Statement; decide

theorem hexUpA : Statement .hexUpA := by unfold Statement; decide

theorem hexUpBC (d : BitVec 1) : Statement (.hexUpBC d) := by revert d; unfold Statement; decide

theorem hexUpDE (d : BitVec 1) : Statement (.hexUpDE d) := by revert d; unfold Statement; decide

theorem hexUpF : Statement .hexUpF := by unfold Statement; decide

theorem hexLoA : Statement .hexLoA := by unfold Statement; decide

theorem hexLoBC (d : BitVec 1) : Statement (.hexLoBC d) := by revert d; unfold Statement; decide

theorem hexLoDE (d : BitVec 1) : Statement (.hexLoDE d) := by revert d; unfold Statement; decide

theorem hexLoF : Statement .hexLoF := by unfold Statement; decide

theorem cr : Statement .cr := by unfold Statement; decide

theorem lf : Statement .lf := by unfold Statement; decide

theorem other (b : Byte) : Statement (.other b) := by simp [Statement, encode, Encoding.bits, Instr.row]

theorem get (r : Nat) (i : Index) : Statement (.get r i) := rfl

theorem snapshot (r : Nat) : Statement (.snapshot r) := rfl

theorem status : Statement .status := rfl

theorem start : Statement .start := rfl

theorem cancel : Statement .cancel := rfl

theorem cancelTake : Statement .cancelTake := rfl

theorem transportFault : Statement .transportFault := rfl

theorem reset : Statement .reset := rfl

end Sys2Proof.Laws.RowMatch
end

