-- ==== Sys2Proof/Laws/Step.lean ====
section
/-!
SUPPORT. What an instruction and a step can do, once: no instruction stops the machine, and each answers one of the states
listed here.
-/

namespace Sys2Proof.Machine

/-- The digit value of a HEX instruction (R51), and none for any other instruction. -/
def hexDigit : Instr → Option Digit
  | .hex07 d => some (digit07 d)
  | .hex89 d => some (digit89 d)
  | .hexUpA | .hexLoA => some digitA
  | .hexUpBC d | .hexLoBC d => some (digitBC d)
  | .hexUpDE d | .hexLoDE d => some (digitDE d)
  | .hexUpF | .hexLoF => some digitF
  | .wra _ _ | .wrb _ _ | .cr | .lf | .other _ | .get _ _ | .snapshot _ | .status | .start | .cancel | .cancelTake
  | .transportFault | .reset => none

/-- The ten HEX rows have one meaning, over their digit (R74). -/
theorem exec_hex {i : Instr} {d : Digit} (h : hexDigit i = some d) (s : State) : exec i s = hexByte d s := by
  cases i <;> cases h <;> rfl

/-- A byte of class HEX decodes to a HEX row of the same digit (R50, R51, R67). -/
theorem hexDigit_decodeByte (b : Byte) : hexDigit (decodeByte b) = hexval b := by
  have key : ∀ b : Byte, hexDigit (decodeByte b) = hexval b := by decide +kernel
  exact key b

/-- What a byte decodes to, by class. -/
theorem decodeByte_cases (b : Byte) :
    (∃ d, hexval b = some d ∧ hexDigit (decodeByte b) = some d) ∨ (b = 0x0D#8 ∧ decodeByte b = .cr) ∨
      (b = 0x0A#8 ∧ decodeByte b = .lf) ∨ (hexval b = none ∧ b ≠ 0x0D#8 ∧ b ≠ 0x0A#8 ∧ decodeByte b = .other b) := by
  cases h : hexval b with
  | some d => exact .inl ⟨d, rfl, (hexDigit_decodeByte b).trans h⟩
  | none =>
    have key : ∀ b : Byte, hexval b = none → (b = 0x0D#8 ∧ decodeByte b = .cr) ∨ (b = 0x0A#8 ∧ decodeByte b = .lf) ∨
        (b ≠ 0x0D#8 ∧ b ≠ 0x0A#8 ∧ decodeByte b = .other b) := by decide +kernel
    obtain h' | h' | h' := key b h
    · exact .inr (.inl h')
    · exact .inr (.inr (.inl h'))
    · exact .inr (.inr (.inr ⟨rfl, h'⟩))

/-- The state an instruction leaves. -/
def State.after (s : State) : Instr → State
  | .wra a v => s.writeEntry (idx .a a) v
  | .wrb a v => s.writeEntry (idx .b a) v
  | .cr => if s.byteEnabled then s.inLineWith s.line.cr else s
  | .other _ => if s.byteEnabled then s.inLineWith s.line.other else s
  | .lf =>
    if s.byteEnabled then
      match s.line.verdict with
      | .frame w => (s.writeEntry (idx (frameBank w) (frameAddr w)) (frameVal w)).endLine
      | .malformed _ => s.endLine
    else s
  | .get r i => s.readEntry r i
  | .snapshot r => s.snapshotRead r
  | .status => { s with replies := .status s.statusWord :: s.replies }
  | .start => if s.rs.parsing then s else s.resume
  | .cancel => if s.rs.parsing then { s with cp := true } else s
  | .cancelTake => if s.takeEnabled then { s with rs := .stopped, cp := false } else s
  | .transportFault => if s.rs.parsing then s.raise .transportFault else s
  | .reset => s.resetBlock
  | .hex07 d => if s.byteEnabled then s.inLineWith (s.line.hex (digit07 d)) else s
  | .hex89 d => if s.byteEnabled then s.inLineWith (s.line.hex (digit89 d)) else s
  | .hexUpA | .hexLoA => if s.byteEnabled then s.inLineWith (s.line.hex digitA) else s
  | .hexUpBC d | .hexLoBC d => if s.byteEnabled then s.inLineWith (s.line.hex (digitBC d)) else s
  | .hexUpDE d | .hexLoDE d => if s.byteEnabled then s.inLineWith (s.line.hex (digitDE d)) else s
  | .hexUpF | .hexLoF => if s.byteEnabled then s.inLineWith (s.line.hex digitF) else s

/-- Every instruction answers a next state, in every state: the block has no step that stops it. -/
theorem exec_eq (i : Instr) (s : State) : exec i s = .next (s.after i) := by
  cases i <;> simp only [exec, State.after] <;> try rfl
  case lf =>
    unfold execLf
    split
    · rw [endOfLine_eq]
      cases s.line.verdict <;> rfl
    · rfl
  case cr => unfold execCr whenEnabled; split <;> rfl
  case other => unfold execOther whenEnabled; split <;> rfl
  case start => unfold execStart; split <;> rfl
  case cancel => unfold execCancel; split <;> rfl
  case cancelTake => unfold execCancelTake whenEnabled; split <;> rfl
  case transportFault => unfold execTransportFault; split <;> rfl
  case hex07 d => unfold execHex07 hexByte whenEnabled; split <;> rfl
  case hex89 d => unfold execHex89 hexByte whenEnabled; split <;> rfl
  case hexUpA => unfold execHexUpA hexByte whenEnabled; split <;> rfl
  case hexUpBC d => unfold execHexUpBC hexByte whenEnabled; split <;> rfl
  case hexUpDE d => unfold execHexUpDE hexByte whenEnabled; split <;> rfl
  case hexUpF => unfold execHexUpF hexByte whenEnabled; split <;> rfl
  case hexLoA => unfold execHexLoA hexByte whenEnabled; split <;> rfl
  case hexLoBC d => unfold execHexLoBC hexByte whenEnabled; split <;> rfl
  case hexLoDE d => unfold execHexLoDE hexByte whenEnabled; split <;> rfl
  case hexLoF => unfold execHexLoF hexByte whenEnabled; split <;> rfl

/-- The state a step leaves. -/
def State.afterStep (s : State) : State :=
  match s.fetch with
  | .run i t => t.after i
  | .hold t => t

/-- Every step answers a next state. -/
theorem step_eq (s : State) : step s = .next s.afterStep := by
  unfold step State.afterStep
  cases s.fetch with
  | run i t => exact exec_eq i t
  | hold t => rfl

/-- The host's run of a machine whose first step answers a next state. -/
theorem run_of_next (M : Host.Core) (n : Nat) {s t : M.State} (h : M.step s = .next t) : M.run (n + 1) s = M.run n t := by
  rw [Host.Core.run.eq_def]
  simp only [h]

/-- Steps in a row are the host's own run of the machine. -/
theorem stepTimes_eq_run (n : Nat) (s : State) : stepTimes n s = Sys2Proof.core.run n s := by
  induction n generalizing s with
  | zero => rfl
  | succ n ih =>
    rw [stepTimes, step_eq]
    exact (ih s.afterStep).trans (run_of_next Sys2Proof.core n (step_eq s)).symm

/-- A run of steps cut in two. -/
theorem stepTimes_add {m n : Nat} {s t : State} (h : stepTimes m s = .next t) : stepTimes (m + n) s = stepTimes n t := by
  induction m generalizing s with
  | zero => rw [Nat.zero_add]; cases h; rfl
  | succ m ih =>
    rw [show m + 1 + n = (m + n) + 1 by omega]
    obtain ⟨u, h1, h2⟩ := andThen_next h
    simp only [stepTimes, h1]
    exact ih h2

end Sys2Proof.Machine
end

