-- ==== Sys2Proof/Tests/Slice0.lean ====
section
/-!
SUPPORT. The model's own tests. The expected values are those of spec/95_test_vectors.md or worked out by hand from the
rule a test names. The theorems named `witness_…` show, for each statement with hypotheses, a state and operands that meet
all of them together.
-/

namespace Sys2Proof.Tests

open Sys2Proof.Machine

/-! ### Small states -/

/-- The next state of an outcome. -/
def out (o : Host.Outcome State Fault Refusal) : Option State :=
  match o with
  | .next s => some s
  | .fault _ => none
  | .refused _ => none

/-- After reset, in a run state with a cancel pending or not. -/
def at_ (rs : RunState) (cp : Bool) : State := { State.reset with rs := rs, cp := cp }

/-- IN_LINE with a line that spells `w` so far. -/
def spelling (w : Word) : State :=
  { State.reset with rs := .inLine, line := { acc := w, nz := true, ovf := false, bad := false, crp := false } }

/-- IN_LINE with a malformed line. -/
def badLine : State :=
  { State.reset with rs := .inLine, line := { acc := 0x1000#16, nz := true, ovf := false, bad := true, crp := false } }

/-- One write after another to one entry. -/
def wrote (i : Index) (vs : List Byte) (s : State) : State := vs.foldl (fun t v => t.writeEntry i v) s

/-- A SNAPSHOT's table with every entry read but entry 31. -/
def allButLast : Vector (Option Byte) 32 := (Vector.replicate 32 (some 0#8)).set 31 none

/-- A state in the middle of a run: entry 5 written three times, reader 1 past its second value, reader 1's SNAPSHOT with
one entry left and reader 2's with all but one. -/
def busy (rs : RunState) : State :=
  { wrote 5#5 [236#8, 28#8, 236#8] State.reset with
    rs := rs, seen := [(37, 2)], snaps := [(1, allButLast), (2, snapSet noReads 4#5 0#8)], draws := 9 }

/-! ### Well-formedness: one ill-formed term for each check -/

theorem test_wellFormed_other : (Instr.other 0x67#8).WellFormed 1 = true := by decide
theorem test_illFormed_other_hex : (Instr.other 0x41#8).WellFormed 1 = false := by decide
theorem test_illFormed_other_cr : (Instr.other 0x0D#8).WellFormed 1 = false := by decide
theorem test_illFormed_other_lf : (Instr.other 0x0A#8).WellFormed 1 = false := by decide
theorem test_illFormed_get : (Instr.get 4 0#5).WellFormed 4 = false := by decide
theorem test_illFormed_snapshot : (Instr.snapshot 2).WellFormed 2 = false := by decide

/-! ### Decoding: words written out bit by bit from the encodings of spec/30_encoding.md -/

-- WRA: bits 15:13 ignored, bit 12 = 1, address bits 1100 -> 0011, value bits 11101100 -> 00110111
theorem test_decode_wra : decodeTableWord 16 0b1001110011101100 = some (.wra 0b0011#4 0b00110111#8) := by decide
-- WRB: bit 12 = 0, address bits 0101 -> 1010, value bits 10100011 -> 11000101 (vector 0xE5A3)
theorem test_decode_wrb : decodeTableWord 16 0b1110010110100011 = some (.wrb 10#4 0xC5#8) := by decide
theorem test_decode_hex07 : decodeTableWord 8 0b00110101 = some (.hex07 0b101#3) := by decide
theorem test_decode_hex89 : decodeTableWord 8 0b00111000 = some (.hex89 0#1) := by decide
theorem test_decode_hexUpA : decodeTableWord 8 0b01000001 = some .hexUpA := by decide
theorem test_decode_hexUpBC : decodeTableWord 8 0b01000011 = some (.hexUpBC 1#1) := by decide
theorem test_decode_hexUpDE : decodeTableWord 8 0b01000100 = some (.hexUpDE 0#1) := by decide
theorem test_decode_hexUpF : decodeTableWord 8 0b01000110 = some .hexUpF := by decide
theorem test_decode_hexLoA : decodeTableWord 8 0b01100001 = some .hexLoA := by decide
theorem test_decode_hexLoBC : decodeTableWord 8 0b01100010 = some (.hexLoBC 0#1) := by decide
theorem test_decode_hexLoDE : decodeTableWord 8 0b01100101 = some (.hexLoDE 1#1) := by decide
theorem test_decode_hexLoF : decodeTableWord 8 0b01100110 = some .hexLoF := by decide
theorem test_decode_cr : decodeTableWord 8 0b00001101 = some .cr := by decide
theorem test_decode_lf : decodeTableWord 8 0b00001010 = some .lf := by decide
theorem test_decode_other : decodeTableWord 8 0b01000000 = some (.other 0x40#8) := by decide
theorem test_decode_other_high : decodeTableWord 8 0b10110000 = some (.other 0xB0#8) := by decide
-- The rows with no bits in the data stream: each is an input of its own (R68)
theorem test_decode_get : decode (.port (.get 2 0b10011#5)) = .get 2 19#5 := by decide
theorem test_decode_snapshot : decode (.port (.snapshot 3)) = .snapshot 3 := by decide
theorem test_decode_status : decode (.port .status) = .status := by decide
theorem test_decode_start : decode (.event .start) = .start := by decide
theorem test_decode_cancel : decode (.event .cancel) = .cancel := by decide
theorem test_decode_cancelTake : decode .internal = .cancelTake := by decide
theorem test_decode_transportFault : decode (.event .transportFault) = .transportFault := by decide
theorem test_decode_reset : decode (.event .reset) = .reset := by decide
theorem test_no_row_of_other_width : decodeTableWord 24 0 = none := by decide

-- Canonical encoding, section 2.6 of the vectors
theorem test_encode_wra : encode (.wra 3#4 55#8) = .frame16 0x1CEC#16 := by decide
theorem test_encode_wrb : encode (.wrb 12#4 90#8) = .frame16 0x035A#16 := by decide
theorem test_canonicalLine :
    canonicalLine 0x1CEC#16 = [0x31#8, 0x43#8, 0x45#8, 0x43#8, 0x0D#8, 0x0A#8] := by decide
-- Bit reversal, section 2.5
theorem test_rev : rev8 0xC8#8 = 0x13#8 ∧ rev8 0x2A#8 = 0x54#8 ∧ rev4 0xC#4 = 3#4 ∧ rev4 0x1#4 = 8#4 := by decide

-- Whole lines without their LF, section 2.2: "0FFFF", "10000", "", CR alone, "0x1", "10\r00"
theorem test_line_leadingZero : decodeLine [0x30#8, 0x46#8, 0x66#8, 0x46#8, 0x66#8] = .frame 0xFFFF#16 := by decide
theorem test_line_overflow :
    decodeLine [0x31#8, 0x30#8, 0x30#8, 0x30#8, 0x30#8, 0x0D#8] = .malformed .overflow := by decide
theorem test_line_empty : decodeLine [] = .malformed .empty ∧ decodeLine [0x0D#8] = .malformed .empty := by decide
theorem test_line_badChar : decodeLine [0x30#8, 0x78#8, 0x31#8] = .malformed .badChar := by decide
theorem test_line_innerCr :
    decodeLine [0x31#8, 0x30#8, 0x0D#8, 0x30#8, 0x30#8, 0x0D#8] = .malformed .badChar := by decide
theorem test_line_twoCr : decodeLine [0x0D#8, 0x0D#8] = .malformed .badChar := by decide

/-! ### The byte instructions, one step each (traces of section 2.3, R74 to R77) -/

-- "908" then "0": acc 0x0908 becomes 0x9080
theorem test_hex07 : (out (exec (.hex07 0#3) (spelling 0x0908#16))).map State.line
    = some ⟨0x9080#16, true, false, false, false⟩ := by decide
-- "1000" then "0": the 1 is shifted out, ovf set
theorem test_hex07_overflow : (out (exec (.hex07 0#3) (spelling 0x1000#16))).map State.line
    = some ⟨0x0000#16, true, true, false, false⟩ := by decide
-- from IDLE, the first byte '9' of "9080"
theorem test_hex89 : (out (exec (.hex89 1#1) (at_ .idle false))).map (fun t => (t.rs, t.line))
    = some (.inLine, ⟨0x0009#16, true, false, false, false⟩) := by decide
theorem test_hexUpA : (out (exec .hexUpA (spelling 0x0001#16))).map State.line
    = some ⟨0x001A#16, true, false, false, false⟩ := by decide
theorem test_hexUpBC : (out (exec (.hexUpBC 1#1) (spelling 0x0001#16))).map State.line
    = some ⟨0x001C#16, true, false, false, false⟩ := by decide
theorem test_hexUpDE : (out (exec (.hexUpDE 1#1) (spelling 0x001C#16))).map State.line
    = some ⟨0x01CE#16, true, false, false, false⟩ := by decide
theorem test_hexUpF : (out (exec .hexUpF (spelling 0x0FFF#16))).map State.line
    = some ⟨0xFFFF#16, true, false, false, false⟩ := by decide
theorem test_hexLoA : (out (exec .hexLoA (spelling 0x0000#16))).map State.line
    = some ⟨0x000A#16, true, false, false, false⟩ := by decide
theorem test_hexLoBC : (out (exec (.hexLoBC 0#1) (spelling 0x0001#16))).map State.line
    = some ⟨0x001B#16, true, false, false, false⟩ := by decide
theorem test_hexLoDE : (out (exec (.hexLoDE 0#1) (spelling 0x0001#16))).map State.line
    = some ⟨0x001D#16, true, false, false, false⟩ := by decide
theorem test_hexLoF : (out (exec .hexLoF (spelling 0x0001#16))).map State.line
    = some ⟨0x001F#16, true, false, false, false⟩ := by decide
-- "10\r" then "f": a CR that was not the last byte before LF
theorem test_hex_afterCr :
    (out (exec .hexLoF
      { spelling 0x0010#16 with line := ⟨0x0010#16, true, false, false, true⟩ })).map State.line
    = some ⟨0x010F#16, true, false, true, false⟩ := by decide
theorem test_cr : (out (exec .cr (spelling 0x9080#16))).map State.line
    = some ⟨0x9080#16, true, false, false, true⟩ := by decide
theorem test_cr_twice : (out (exec .cr { State.reset with rs := .inLine, line := ⟨0#16, false, false, false, true⟩ })).map
    State.line = some ⟨0#16, false, false, true, true⟩ := by decide
theorem test_other : (out (exec (.other 0x78#8) (spelling 0#16))).map State.line
    = some ⟨0x0000#16, true, false, true, false⟩ := by decide
theorem test_other_stopped : out (exec (.other 0x78#8) State.reset) = some State.reset := by decide
-- LF of "9080": entry 16 becomes 1, the line ends
theorem test_lf_valid : (out (exec .lf (spelling 0x9080#16))).map (fun t => (t.rf 16#5, t.rs, t.line))
    = some (1#8, .idle, Line.clear) := by decide
theorem test_lf_malformed : out (exec .lf badLine) = some (at_ .idle false) := by decide

/-! ### Frames, readers, control (sections 2.4, 2.7, 2.8) -/

theorem test_wra : (out (exec (.wra 3#4 0x37#8) State.reset)).map (fun t => (t.rf 19#5, t.rf 3#5, t.log 19#5))
    = some (0x37#8, 0#8, [0#8, 0x37#8]) := by decide
-- a write of the value the entry already holds still appends (D25)
theorem test_wrb : (out (exec (.wrb 0#4 0#8) State.reset)).map (fun t => (t.rf 0#5, t.log 0#5, t.log 16#5))
    = some (0#8, [0#8, 0#8], [0#8]) := by decide
-- Log = [0, 236, 28, 236], Seen = 2: (28, 2) and (236, 3) are admitted, and nothing else
theorem test_read_at_watermark :
    (((busy .idle).readEntryAt 1 5#5 2).replies, ((busy .idle).readEntryAt 1 5#5 2).seenAt 1 5#5)
      = ([.entry 1 5#5 28#8], 2) := by decide
theorem test_read_draws : pickPos 0 2 4 = 2 ∧ pickPos 7 2 4 = 3 ∧ pickPos 5 3 4 = 3 := by decide
-- after reset a read can only return 0 (L1-E5)
theorem test_get_reset (r : Nat) (i : Index) : State.reset.readValue r i = 0#8 := by
  have h := State.reset.readValue_mem r i
  simpa using h
-- a snapshot's last entry is entry 31, whatever the draw; its next read hands over the table
theorem test_snapshot_lastIndex : (busy .idle).nextIndex 1 = 31#5 := by
  have h : unread ((busy .idle).snapOf 1) = [31#5] := by decide
  simp [State.nextIndex, h, Nat.mod_one]
theorem test_snapshot_last : ((busy .idle).storeSnap 1 (snapSet allButLast 31#5 7#8)).snapOf 1 = noReads := by decide
theorem test_status : (out (exec .status (at_ .inLine true))).map State.replies = some [.status 0x06#8] := by decide
theorem test_status_faulted : (at_ .faulted false).statusWord = 0x03#8 := by decide
theorem test_start : out (exec .start (at_ .faulted false)) = some (at_ .idle false) := by decide
theorem test_start_ignored : out (exec .start badLine) = some badLine := by decide
theorem test_cancel : (out (exec .cancel (at_ .idle false))).map State.statusWord = some 0x05#8 := by decide
theorem test_cancel_ignored : out (exec .cancel State.reset) = some State.reset := by decide
theorem test_cancelTake : (out (exec .cancelTake (at_ .idle true))).map State.statusWord = some 0x00#8 := by decide
theorem test_cancelTake_inLine : (out (exec .cancelTake (at_ .inLine true))).map State.statusWord = some 0x06#8 := by
  decide
theorem test_transportFault : out (exec .transportFault badLine) = some (at_ .faulted false) := by decide
theorem test_transportFault_stopped : out (exec .transportFault State.reset) = some State.reset := by decide
theorem test_reset : (out (exec .reset (busy .inLine))).map (fun t => (t.log 5#5, t.seenAt 1 5#5, t.statusWord))
    = some ([0#8], 0, 0x00#8) := by decide

-- one clocked cycle with CANCEL asserted and a byte offered at IDLE: CANCEL, then CANCEL_TAKE, the byte stays (R108)
theorem test_cycle_cancel :
    (out (clockedCycle ⟨false, false, false, true⟩ { at_ .idle false with stream := [0x31#8] })).map
      (fun t => (t.statusWord, t.stream)) = some (0x00#8, [0x31#8]) := by decide
-- TRANSPORT_FAULT before START in one cycle: the session ends and a new one starts
theorem test_cycle_faultStart :
    (out (clockedCycle ⟨false, true, true, false⟩ badLine)).map (fun t => (t.statusWord, t.line))
      = some (0x01#8, Line.clear) := by decide

/-! ### Steps of a placed instruction -/

theorem test_step_byte : (out (step (State.reset.withFetchWord 8 0x39))).map (fun t => (t.rs, t.line.acc, t.stream))
    = some (.inLine, 0x0009#16, []) := by decide
theorem test_step_frame : (out (step (State.reset.withFetchWord 16 0x1CEC))).map (fun t => (t.log 19#5, t.rs))
    = some ([0#8, 0x37#8], .idle) := by decide
-- a byte offered to a stopped engine stays with the transport (section 2.8)
theorem test_step_stopped : out (step { State.reset with stream := [0x31#8] })
    = some { State.reset with stream := [0x31#8] } := by decide

/-! ### Witnesses: encoding -/

theorem witness_bit_indices : (3 : Nat) < 4 ∧ (7 : Nat) < 8 := by decide
theorem witness_frame_banks : (0x9080#16).getLsbD 12 = true ∧ (0x0A37#16).getLsbD 12 = false := by decide
theorem witness_wellFormed : (Instr.other 0xFF#8).WellFormed 4 = true ∧ (Instr.get 3 31#5).WellFormed 4 = true ∧
    (Instr.snapshot 0).WellFormed 1 = true ∧ (Instr.wra 15#4 255#8).WellFormed 0 = true := by decide
theorem witness_hexDigits : hexval 0x30#8 = some 0#4 ∧ hexval 0x39#8 = some 9#4 ∧ hexval 0x41#8 = some 10#4 ∧
    hexval 0x46#8 = some 15#4 ∧ hexval 0x61#8 = some 10#4 ∧ hexval 0x66#8 = some 15#4 := by decide
theorem witness_noHexDigits : hexval 0x2F#8 = none ∧ hexval 0x3A#8 = none ∧ hexval 0x40#8 = none ∧
    hexval 0x47#8 = none ∧ hexval 0x60#8 = none ∧ hexval 0x67#8 = none := by decide
theorem witness_LeadingZeros : lineBody [0x31#8, 0x0D#8] ≠ [] := by decide
theorem witness_LineValidity_cr :
    ([0x31#8, 0x0D#8] : List Byte) = [0x31#8] ++ [0x0D#8] ∧ decodeLine [0x31#8, 0x0D#8] = .frame 1#16 := by decide
theorem witness_LineValidity_noCr :
    ([0x31#8] : List Byte).getLast? ≠ some 0x0D#8 ∧ decodeLine [0x31#8] = .frame 1#16 := by decide

/-! ### Witnesses: the line parser -/

theorem witness_enabled_idle : (at_ .idle false).rs = .idle ∧ (at_ .idle false).cp = false := by decide
theorem witness_enabled_inLine : (at_ .inLine true).rs = .inLine := by decide
theorem witness_lf_valid : (spelling 0x9080#16).rs = .inLine ∧ (spelling 0x9080#16).line.nz = true ∧
    (spelling 0x9080#16).line.ovf = false ∧ (spelling 0x9080#16).line.bad = false := by decide
theorem witness_lf_malformed : badLine.rs = .inLine ∧
    ¬(badLine.line.nz = true ∧ badLine.line.ovf = false ∧ badLine.line.bad = false) := by decide
theorem witness_lf_empty : (at_ .idle false).rs = .idle ∧ (at_ .idle false).cp = false ∧
    ¬((at_ .idle false).line.nz = true ∧ (at_ .idle false).line.ovf = false ∧ (at_ .idle false).line.bad = false) := by
  decide
theorem witness_notEnabled : (at_ .stopped false).rs = .stopped ∧ (at_ .faulted false).rs = .faulted ∧
    (at_ .idle true).rs = .idle ∧ (at_ .idle true).cp = true := by decide
theorem witness_ParserBytesFrame :
    (0x0D#8 : Byte) ≠ 0x0A#8 ∧ ∃ t, exec (decodeByte 0x0D#8) badLine = .next t := ⟨by decide, _, exec_eq _ _⟩
theorem witness_LfFrame : (∃ t, exec .lf (spelling 0x9080#16) = .next t) ∧
    (0#5 : Index) ≠ idx (frameBank (spelling 0x9080#16).line.acc) (frameAddr (spelling 0x9080#16).line.acc) :=
  ⟨⟨_, exec_eq _ _⟩, by decide⟩
theorem witness_ParserTransitions : (at_ .idle false).rs = .idle ∧ (at_ .idle false).cp = false ∧
    (∃ t, exec (decodeByte 0x0A#8) (at_ .idle false) = .next t) ∧
    ∃ t, exec (decodeByte 0x31#8) (at_ .idle false) = .next t :=
  ⟨rfl, rfl, ⟨_, exec_eq _ _⟩, _, exec_eq _ _⟩
theorem witness_atLineStart : (at_ .idle false).atLineStart := ⟨rfl, rfl, rfl⟩
theorem witness_line_noLf : (0x0A#8 : Byte) ∉ [0x31#8, 0x7A#8, 0x0D#8] := by decide
theorem witness_digits : ∀ b ∈ [(0x46#8 : Byte), 0x66#8, 0x39#8, 0x30#8, 0x41#8], (hexval b).isSome = true := by decide
theorem witness_AccumulatorArithmetic_overflow :
    0xFFFF < bodyValue [0x31#8, 0x30#8, 0x30#8, 0x30#8, 0x30#8] := by decide

/-! ### Witnesses: frames -/

theorem witness_bank_words : 0x9080#16 &&& 0x1000#16 = 0x1000#16 ∧ 0xE000#16 &&& 0x1000#16 = 0#16 := by decide
/-- One line, "80\r" before its LF, with the next line's first byte behind it. -/
theorem witness_OneLine : (0x0A#8 : Byte) ∉ [0x38#8, 0x30#8, 0x0D#8] ∧
    ({ at_ .idle false with stream := [0x38#8, 0x30#8, 0x0D#8] ++ 0x0A#8 :: [0x31#8] } : State).atLineStart ∧
    ({ at_ .idle false with stream := [0x38#8, 0x30#8, 0x0D#8] ++ 0x0A#8 :: [0x31#8] } : State).moves = [] :=
  ⟨by decide, ⟨rfl, rfl, rfl⟩, rfl⟩
/-- A malformed line between two valid ones. -/
theorem witness_LinesInOrder : (∀ line ∈ [[(0x38#8 : Byte)], [0x7A#8], [0x31#8]], (0x0A#8 : Byte) ∉ line) ∧
    ({ at_ .idle false with stream := wireBytes [[0x38#8], [0x7A#8], [0x31#8]] ++ [] } : State).atLineStart ∧
    ({ at_ .idle false with stream := wireBytes [[0x38#8], [0x7A#8], [0x31#8]] ++ [] } : State).moves = [] :=
  ⟨by decide, ⟨rfl, rfl, rfl⟩, rfl⟩

/-! ### Witnesses: readers -/

theorem witness_DrawRange : (2 : Nat) < 4 ∧ pickPos 1 2 4 = 3 := by decide

theorem busy_log (rs : RunState) (i : Index) :
    (busy rs).log i = if i = 5#5 then [0#8, 236#8, 28#8, 236#8] else [0#8] := by
  have h : (busy rs).log i = (wrote 5#5 [236#8, 28#8, 236#8] State.reset).log i := rfl
  simp only [h, wrote, List.foldl, State.log_writeEntry, State.log_reset]
  split <;> rfl

theorem busy_seenAt (rs : RunState) (r : Nat) (i : Index) :
    (busy rs).seenAt r i = if r = 1 ∧ i = 5#5 then 2 else 0 := by
  simp only [State.seenAt, busy, Table.get]
  by_cases h : r = 1 ∧ i = 5#5
  · obtain ⟨rfl, rfl⟩ := h
    rfl
  · have : (37 : Nat) ≠ seenKey r i := fun e => h (by
      have := (seenKey_inj (r := 1) (r' := r) (i := 5#5) (i' := i)).mp e
      exact ⟨this.1.symm, this.2.symm⟩)
    simp [h, this]

theorem busy_snapOf (rs : RunState) (r : Nat) :
    (busy rs).snapOf r = if r = 1 then allButLast else if r = 2 then snapSet noReads 4#5 0#8 else noReads := by
  simp only [State.snapOf, busy, Table.get]
  simp only [eq_comm]

/-- The invariant in a state of a run that is not reset: writes made, watermarks moved, SNAPSHOTs in progress. -/
theorem busy_inv (rs : RunState) (h : rs ≠ .inLine) : (busy rs).Inv where
  seenWf := rfl
  snapsWf := by
    have : ∀ rs, Table.wf noReads (busy rs).snaps = Table.wf noReads (busy .idle).snaps := fun _ => rfl
    rw [this]
    decide
  seenBelow r i := by
    rw [busy_log, busy_seenAt]
    by_cases h5 : i = 5#5 <;> by_cases h1 : r = 1 <;> simp [h5, h1]
  snapsOpen r := by
    rw [busy_snapOf]
    split
    · decide
    · split
      · decide
      · exact unread_noReads
  cpParsing := fun e => nomatch (show false = true from e)
  lineClear := fun _ => rfl
  lineStarted := fun e => absurd e h
  digitsFirst := fun _ => ⟨rfl, rfl⟩

theorem witness_GetRead : (busy .idle).Inv ∧ (busy .faulted).Inv := ⟨busy_inv _ (by decide), busy_inv _ (by decide)⟩
theorem witness_SnapshotRead_more : (busy .idle).Inv ∧
    ∃ j : Index, j ≠ 0#5 ∧ snapGet ((busy .idle).snapOf 2) j = none := ⟨busy_inv _ (by decide), 7#5, by decide, by decide⟩
theorem witness_SnapshotRead_last : (busy .idle).Inv ∧
    ∀ j : Index, j ≠ 31#5 → snapGet ((busy .idle).snapOf 1) j ≠ none := ⟨busy_inv _ (by decide), by decide⟩
theorem witness_SnapshotCompletes : (busy .idle).Inv ∧ (busy .idle).snapOf 0 = noReads :=
  ⟨busy_inv _ (by decide), by decide⟩
theorem witness_ReadersFrame : (∃ t, exec (decodePort (.get 1 5#5)) (busy .idle) = .next t) ∧
    (∀ i', PortOp.get 1 5#5 ≠ .get 2 i') ∧ PortOp.get 1 5#5 ≠ .snapshot 2 :=
  ⟨⟨_, exec_eq _ _⟩, by decide, by decide⟩
theorem witness_ReadersNeverDelay : ∃ s t : State, exec (decodePort (.snapshot 2)) s = .next t ∧ s.moves = [] ∧
    (∃ s', step s = .next s') ∧ ∃ t', step t = .next t' :=
  ⟨{ busy .idle with stream := [0x31#8] }, _, exec_eq _ _, rfl, ⟨_, step_eq _⟩, _, step_eq _⟩
theorem witness_LineStateHidden : ∃ t, exec (decodePort (.snapshot 1)) badLine = .next t := ⟨_, exec_eq _ _⟩

/-! ### Witnesses: control and the machine -/

theorem witness_runStates : State.reset.rs = .stopped ∧ (at_ .idle false).rs = .idle ∧ badLine.rs = .inLine ∧
    (at_ .faulted false).rs = .faulted := by decide
theorem witness_cancelTake : (at_ .idle true).rs = .idle ∧ (at_ .idle true).cp = true ∧
    ¬((at_ .inLine true).rs = .idle ∧ (at_ .inLine true).cp = true) := by decide
theorem witness_ControlFrame : (∃ t, exec .start State.reset = .next t) ∧ (∃ t, exec .cancel badLine = .next t) ∧
    (∃ t, exec .cancelTake (at_ .idle true) = .next t) ∧ ∃ t, exec .transportFault badLine = .next t :=
  ⟨⟨_, exec_eq _ _⟩, ⟨_, exec_eq _ _⟩, ⟨_, exec_eq _ _⟩, _, exec_eq _ _⟩
theorem witness_ResetFrame : ∃ t, exec .reset (busy .inLine) = .next t := ⟨_, exec_eq _ _⟩
theorem witness_StepRunsByte_idle :
    ({ at_ .idle false with stream := [0x31#8] } : State).moves = [] ∧ (at_ .idle false).cp = false := by decide
theorem witness_StepRunsByte_engine : ∃ s : State, s.moves = .engine :: [.port .status] ∧ s.stream = 0x0A#8 :: [0x31#8] ∧
    s.rs = .inLine := ⟨{ badLine with moves := [.engine, .port .status], stream := [0x0A#8, 0x31#8] }, by decide⟩
theorem witness_StepRunsByte_notEnabled : (∃ s : State, s.moves = [] ∧ s.stream = [0x31#8] ∧ s.rs = .faulted) ∧
    ∃ s : State, s.moves = [] ∧ s.stream = [0x31#8] ∧ s.rs = .idle ∧ s.cp = true :=
  ⟨⟨{ at_ .faulted false with stream := [0x31#8] }, by decide⟩, { at_ .idle true with stream := [0x31#8] }, by decide⟩
theorem witness_StepRunsInput : (∃ s : State, s.moves = .port (.get 0 3#5) :: []) ∧
    (∃ s : State, s.moves = .event .cancel :: []) ∧ ∃ s : State, s.moves = .offer 0x31#8 :: [] :=
  ⟨⟨{ State.reset with moves := [.port (.get 0 3#5)] }, rfl⟩, ⟨{ State.reset with moves := [.event .cancel] }, rfl⟩,
    { State.reset with moves := [.offer 0x31#8] }, rfl⟩
theorem witness_InvKept : (busy .idle).Inv ∧ ∃ t, step (busy .idle) = .next t := ⟨busy_inv _ (by decide), _, step_eq _⟩
theorem witness_ReadersBelowKept : ∃ s t : State, s.ReadersBelow 3 ∧ step s = .next t := by
  refine ⟨{ busy .idle with moves := [.port (.snapshot 2)] }, _, ⟨by decide, fun r i h => ?_, fun r h => ?_⟩, step_eq _⟩
  · have := busy_seenAt .idle r i
    rw [if_neg (by omega)] at this
    exact this
  · have := busy_snapOf .idle r
    rw [if_neg (by omega), if_neg (by omega)] at this
    exact this
theorem witness_StepCoherence : (busy .idle).Inv ∧ (∃ t, step (busy .idle) = .next t) ∧
    (busy .idle).moves.head? ≠ some (.event .reset) := ⟨busy_inv _ (by decide), ⟨_, step_eq _⟩, by decide⟩
theorem witness_OnlyFramesWrite : ∃ t, step { spelling 0x9080#16 with stream := [0x0A#8] } = .next t := ⟨_, step_eq _⟩
theorem witness_FaultedLeftBy : ∃ s t : State, s.rs = .faulted ∧ step s = .next t ∧ s.moves.head? = some (.event .start) :=
  ⟨{ at_ .faulted false with moves := [.event .start] }, _, rfl, step_eq _, rfl⟩
theorem witness_CancelTakePersists : (at_ .idle true).rs = .idle ∧ (at_ .idle true).cp = true ∧
    ∃ t, step (at_ .idle true) = .next t := ⟨rfl, rfl, _, step_eq _⟩
theorem witness_AgentRights : ∃ t, step (spelling 0x9080#16) = .next t := ⟨_, step_eq _⟩
theorem witness_HeldInLine : badLine.rs = .inLine ∧ badLine.stream = [] ∧ ∃ t, step badLine = .next t :=
  ⟨rfl, rfl, _, step_eq _⟩
theorem witness_Quiescence : State.reset.moves = [] ∧ State.reset.quiescent = true ∧ (at_ .idle true).moves = [] ∧
    (at_ .idle true).quiescent = false := by decide

/-! ### Witnesses: runs -/

theorem step_busy : step (busy .stopped) = .next (busy .stopped) := rfl

/-- A run that stays where it is, with the invariant, and no RESET. -/
theorem witness_ReaderCoherence : ∃ run : Nat → State, IsRun run ∧ (run 0).Inv ∧
    ∀ j, 0 ≤ j → j < 5 → (run j).moves.head? ≠ some (.event .reset) :=
  ⟨fun _ => busy .stopped, fun _ => ⟨_, [], step_busy, rfl⟩, busy_inv _ (by decide), fun _ _ _ => nofun⟩

/-- A pending cancel at a line start, and the engine's step that takes it. -/
theorem witness_CancelEventuallyTaken : ∃ run : Nat → State, IsRun run ∧ EngineFair run ∧
    ((run 0).rs = .idle ∧ (run 0).cp = true) ∧
    ∀ m, 0 ≤ m → (run m).moves.head? ≠ some (.event .transportFault) ∧ (run m).moves.head? ≠ some (.event .reset) := by
  refine ⟨fun n => match n with | 0 => at_ .idle true | _ + 1 => State.reset, fun n => ⟨State.reset, [], ?_, rfl⟩,
    fun n => ⟨n, le_rfl, ?_⟩, ⟨rfl, rfl⟩, fun m _ => ?_⟩
  · cases n <;> rfl
  · cases n <;> rfl
  · cases m <;> exact ⟨nofun, nofun⟩

/-- The run in which reader 0 reads entry 3 at every step. -/
def reading : Nat → State
  | 0 => { State.reset with moves := [.port (.get 0 3#5)] }
  | n + 1 => { ((reading n).readEntry 0 3#5) with moves := [.port (.get 0 3#5)] }

theorem reading_moves (n : Nat) : (reading n).moves = [.port (.get 0 3#5)] := by cases n <;> rfl

theorem reading_log (n : Nat) (i : Index) : (reading n).log i = [0#8] := by
  induction n with
  | zero => exact State.log_reset i
  | succ n ih => exact ih

/-- A run with reads for ever, every one of which returns the newest value: after reset there is no other. -/
theorem witness_ImmediateVisibility : ∃ run : Nat → State, IsRun run ∧
    ∀ n r i, (run n).nextPos r i = ((run n).log i).length - 1 := by
  refine ⟨reading, fun n => ⟨{ (reading n).readEntry 0 3#5 with moves := [] }, [.port (.get 0 3#5)], ?_, rfl⟩,
    fun n r i => ?_⟩
  · unfold step State.fetch
    rw [reading_moves]
    rfl
  · have h := (reading n).nextPos_lt r i
    rw [reading_log] at h ⊢
    simp only [List.length_singleton] at h ⊢
    omega

end Sys2Proof.Tests
end

section
/-!
PROOFS. Bit reversal (R11), and that the block holds nothing of a reader it does not have (R9, R91).
-/

namespace Sys2Proof

/-! ### Bit reversal -/

@[simp] theorem rev4_rev4 (v : BitVec 4) : rev4 (rev4 v) = v := BitVec.reverse_reverse_eq

@[simp] theorem rev8_rev8 (v : BitVec 8) : rev8 (rev8 v) = v := BitVec.reverse_reverse_eq

/-- Settles O1: the bits of each reversal, and the library's law that reversing twice gives the word back. -/
theorem bitReversal : Obligations.BitReversal :=
  ⟨getLsbD_rev4, getLsbD_rev8, rev4_rev4, rev8_rev8⟩

namespace Machine

/-! ### Who touches the readers' tables -/

@[simp] theorem State.seenAt_reset (r : Nat) (i : Index) : State.reset.seenAt r i = 0 := rfl

@[simp] theorem State.snapOf_reset (r : Nat) : State.reset.snapOf r = noReads := rfl

@[simp] theorem State.seenAt_resetBlock (s : State) (r : Nat) (i : Index) : s.resetBlock.seenAt r i = 0 := rfl

/-- No instruction takes a move: moves are taken where the instruction is fetched. -/
@[simp] theorem State.moves_after (i : Instr) (s : State) : (s.after i).moves = s.moves := by
  cases i with
  | lf => cases h : s.line.verdict <;> simp [State.after, h, apply_ite State.moves]
  | snapshot r => simp [State.after, State.snapshotRead]
  | _ => simp [State.after, apply_ite State.moves]

/-- Watermarks change by a GET, a SNAPSHOT or RESET only (R19, R43, R118). -/
theorem State.seen_after {i : Instr} (hg : ∀ r j, i ≠ .get r j) (hs : ∀ r, i ≠ .snapshot r) (hr : i ≠ .reset)
    (s : State) : (s.after i).seen = s.seen := by
  cases i with
  | get r j => exact absurd rfl (hg r j)
  | snapshot r => exact absurd rfl (hs r)
  | reset => exact absurd rfl hr
  | lf => cases h : s.line.verdict <;> simp [State.after, h, apply_ite State.seen]
  | _ => simp [State.after, apply_ite State.seen]

/-- SNAPSHOTs in progress change by a SNAPSHOT only (R93); RESET leaves them to their readers (log entry 7). -/
theorem State.snaps_after {i : Instr} (hs : ∀ r, i ≠ .snapshot r) (s : State) : (s.after i).snaps = s.snaps := by
  cases i with
  | snapshot r => exact absurd rfl (hs r)
  | lf => cases h : s.line.verdict <;> simp [State.after, h, apply_ite State.snaps]
  | _ => simp [State.after, apply_ite State.snaps]

/-- An instruction of a reader below `n` leaves the watermarks of every other reader, or they are reset. -/
theorem State.seenAt_after_of_wellFormed {n : Nat} {i : Instr} (hi : i.WellFormed n = true) {r : Nat} (hr : n ≤ r)
    (j : Index) (s : State) : (s.after i).seenAt r j = s.seenAt r j ∨ (s.after i).seenAt r j = 0 := by
  cases i with
  | get r' j' =>
    have hlt : r' < n := of_decide_eq_true hi
    exact .inl (s.seenAt_readEntry_other fun e => by omega)
  | snapshot r' =>
    have hlt : r' < n := of_decide_eq_true hi
    exact .inl ((State.seenAt_congr (s.seen_snapshotRead r') r j).trans
      (s.seenAt_readEntry_other fun e => by omega))
  | reset => exact .inr (s.seenAt_resetBlock r j)
  | _ => exact .inl (State.seenAt_congr (State.seen_after (by nofun) (by nofun) (by nofun) s) r j)

/-- An instruction of a reader below `n` leaves the SNAPSHOT of every other reader. -/
theorem State.snapOf_after_of_wellFormed {n : Nat} {i : Instr} (hi : i.WellFormed n = true) {r : Nat} (hr : n ≤ r)
    (s : State) : (s.after i).snapOf r = s.snapOf r := by
  cases i with
  | snapshot r' =>
    have hlt : r' < n := of_decide_eq_true hi
    exact s.snapOf_snapshotRead_other (by omega)
  | _ => exact State.snapOf_congr (State.snaps_after (by nofun) s) r

/-! ### Only readers below `n` -/

section
variable {n : Nat} {s : State}

theorem State.readersBelow_reset : State.reset.ReadersBelow n where
  moves := rfl
  seen r i _ := State.seenAt_reset r i
  snaps r _ := State.snapOf_reset r

/-- `ReadersBelow` reads the moves, the watermarks and the SNAPSHOTs in progress, and no other field. -/
theorem State.ReadersBelow.congr {t : State} (h : s.ReadersBelow n) (hm : t.moves.all (Move.below n) = true)
    (hseen : t.seen = s.seen) (hsnaps : t.snaps = s.snaps) : t.ReadersBelow n where
  moves := hm
  seen r i hr := (State.seenAt_congr hseen r i).trans (h.seen r i hr)
  snaps r hr := (State.snapOf_congr hsnaps r).trans (h.snaps r hr)

/-- The first move and the ones behind it come from readers below `n`. -/
theorem State.ReadersBelow.moves_cons {m : Move} {ms : List Move} (h : s.ReadersBelow n) (hs : s.moves = m :: ms) :
    Move.below n m = true ∧ ms.all (Move.below n) = true := by
  have hm := h.moves
  rw [hs, List.all_cons, Bool.and_eq_true] at hm
  exact hm

/-- A well-formed instruction gives no reader from `n` on a watermark or a SNAPSHOT. -/
theorem State.ReadersBelow.after {i : Instr} (h : s.ReadersBelow n) (hi : i.WellFormed n = true) :
    (s.after i).ReadersBelow n where
  moves := by rw [State.moves_after]; exact h.moves
  seen r j hr := (State.seenAt_after_of_wellFormed hi hr j s).elim (·.trans (h.seen r j hr)) id
  snaps r hr := (State.snapOf_after_of_wellFormed hi hr s).trans (h.snaps r hr)

/-- A port operation of a reader below `n` is a well-formed instruction of a block with `n` readers (R91). -/
theorem wellFormed_decodePort {p : PortOp} (h : PortOp.below n p = true) : (decodePort p).WellFormed n = true := by
  cases p with
  | get r i => exact h
  | snapshot r => exact h
  | status => rfl

/-- An event is no reader operation, so it is well formed whatever the number of readers (R68). -/
theorem wellFormed_decodeEvent (n : Nat) (e : EventIn) : (decodeEvent e).WellFormed n = true := by
  cases e <;> rfl

/-- What is fetched for a block with `n` readers: a well-formed instruction, or nothing, in a state that holds nothing of
any other reader. -/
def Fetched.ReadersBelow (n : Nat) : Fetched → Prop
  | .run i t => i.WellFormed n = true ∧ t.ReadersBelow n
  | .hold t => t.ReadersBelow n

theorem State.ReadersBelow.engineFetch (h : s.ReadersBelow n) : s.engineFetch.ReadersBelow n := by
  obtain ⟨-, e⟩ | ⟨b, bs, -, -, e⟩ | ⟨-, -, e⟩ := s.engineFetch_cases
  · rw [e]
    exact ⟨rfl, h⟩
  · rw [e]
    exact ⟨wellFormed_decodeByte n b, h.congr h.moves rfl rfl⟩
  · rw [e]
    exact h

theorem State.ReadersBelow.fetch (h : s.ReadersBelow n) : s.fetch.ReadersBelow n := by
  obtain ⟨ms, hm, e⟩ | ⟨b, ms, hm, e⟩ | ⟨p, ms, hm, e⟩ | ⟨ev, ms, hm, e⟩ := s.fetch_cases
  · rw [e]
    refine State.ReadersBelow.engineFetch (h.congr ?_ rfl rfl)
    obtain ⟨-, rfl⟩ | hm := hm
    · rfl
    · exact (h.moves_cons hm).2
  · rw [e]
    exact h.congr (h.moves_cons hm).2 rfl rfl
  · rw [e]
    obtain ⟨hp, hms⟩ := h.moves_cons hm
    exact ⟨wellFormed_decodePort hp, h.congr hms rfl rfl⟩
  · rw [e]
    exact ⟨wellFormed_decodeEvent n ev, h.congr (h.moves_cons hm).2 rfl rfl⟩

theorem State.ReadersBelow.afterStep (h : s.ReadersBelow n) : s.afterStep.ReadersBelow n := by
  have hf := h.fetch
  unfold State.afterStep
  cases e : s.fetch with
  | run i t =>
    rw [e] at hf
    exact hf.2.after hf.1
  | hold t =>
    rw [e] at hf
    exact hf

end

/-- Settles O49: the instruction fetched is well formed for `n` readers, and such an instruction touches no other reader's
tables. -/
theorem readersBelowKept : Obligations.ReadersBelowKept := by
  refine fun n => ⟨State.readersBelow_reset, fun s t h e => ?_⟩
  rw [step_eq] at e
  cases e
  exact h.afterStep

end Machine
end Sys2Proof
end

section
/-!
PROOFS. The state of the block (R14 to R28): who writes the register file, which entry a frame word names, what control
events, ports and STATUS leave alone, and the invariant.
-/

namespace Sys2Proof

/-! ### The fields of a canonical word (R58, R59, R60, R64) -/

@[simp] theorem frameBank_encodeFrame (bank : Bank) (a : Addr) (v : Byte) : frameBank (encodeFrame bank a v) = bank := by
  unfold frameBank
  rw [getLsbD_encodeFrame]
  cases bank <;> rfl

@[simp] theorem frameAddr_encodeFrame (bank : Bank) (a : Addr) (v : Byte) : frameAddr (encodeFrame bank a v) = a := by
  have h : (encodeFrame bank a v).extractLsb' 8 4 = rev4 a := by
    apply BitVec.eq_of_getLsbD_eq
    intro j hj
    have h8 : ¬ 8 + j < 8 := by omega
    have h12 : 8 + j < 12 := by omega
    simp [getLsbD_encodeFrame, h8, h12, hj]
  rw [frameAddr, h, rev4_rev4]

@[simp] theorem frameVal_encodeFrame (bank : Bank) (a : Addr) (v : Byte) : frameVal (encodeFrame bank a v) = v := by
  have h : (encodeFrame bank a v).extractLsb' 0 8 = rev8 v := by
    apply BitVec.eq_of_getLsbD_eq
    intro j hj
    simp [getLsbD_encodeFrame, hj]
  rw [frameVal, h, rev8_rev8]

/-! ### Who can write (R15, R16) -/

/-- The rows whose meaning can change a log: the two frame instructions, LF, which executes a frame, and RESET. -/
def Instr.mayWrite : Instr → Bool
  | .wra _ _ | .wrb _ _ | .lf | .reset => true
  | _ => false

/-- Of the bytes LF alone can write. -/
theorem mayWrite_decodeByte (b : Byte) : (decodeByte b).mayWrite = decide (b = 0x0A#8) := by
  obtain ⟨d, hv, hd⟩ | ⟨rfl, hb⟩ | ⟨rfl, hb⟩ | ⟨-, -, hlf, hb⟩ := Machine.decodeByte_cases b
  · have hlf : b ≠ 0x0A#8 := by
      rintro rfl
      cases hv
    rw [decide_eq_false hlf]
    cases hb : decodeByte b <;> simp_all [Machine.hexDigit, Instr.mayWrite]
  · rfl
  · rfl
  · rw [hb, decide_eq_false hlf]
    rfl

@[simp] theorem mayWrite_decodePort (p : PortOp) : (decodePort p).mayWrite = false := by cases p <;> rfl

/-- Of the events RESET alone can write. -/
theorem mayWrite_decodeEvent (e : EventIn) : (decodeEvent e).mayWrite = decide (e = .reset) := by cases e <;> rfl

namespace Machine

/-! ### Indices (R14) -/

theorem toNat_idx (bank : Bank) (a : Addr) : (idx bank a).toNat = (if bank = .a then 16 else 0) + a.toNat := by
  rw [idx, BitVec.toNat_append, ← Nat.shiftLeft_add_eq_or_of_lt a.isLt]
  cases bank <;> rfl

theorem idx_inj {bank bank' : Bank} {a a' : Addr} : idx bank a = idx bank' a' ↔ bank = bank' ∧ a = a' := by
  have h := a.isLt
  have h' := a'.isLt
  constructor
  · intro e
    have hn := congrArg BitVec.toNat e
    rw [toNat_idx, toNat_idx] at hn
    have ha : a = a' := BitVec.eq_of_toNat_eq (by split at hn <;> split at hn <;> omega)
    refine ⟨?_, ha⟩
    subst ha
    cases bank <;> cases bank' <;> simp at hn ⊢
  · rintro ⟨rfl, rfl⟩
    rfl

/-- Every entry has a bank and an address. -/
theorem exists_idx (i : Index) : ∃ bank a, idx bank a = i := by
  have h := i.isLt
  by_cases hi : i.toNat < 16
  · refine ⟨.b, BitVec.ofNat 4 i.toNat, BitVec.eq_of_toNat_eq ?_⟩
    simp [toNat_idx]
    omega
  · refine ⟨.a, BitVec.ofNat 4 (i.toNat - 16), BitVec.eq_of_toNat_eq ?_⟩
    simp [toNat_idx]
    omega

/-- A frame instruction writes the entry its word names (R82). -/
theorem State.after_decodeFrame (w : Word) (s : State) :
    s.after (decodeFrame w) = s.writeEntry (idx (frameBank w) (frameAddr w)) (frameVal w) := by
  unfold decodeFrame
  cases h : frameBank w <;> rfl

/-- Settles O25: the entry's own pair gives the canonical word that writes it. -/
theorem everyEntryWritable : Obligations.EveryEntryWritable := by
  refine ⟨fun a => ⟨toNat_idx .a a, by simp [toNat_idx]⟩, fun _ _ _ _ => idx_inj, fun i v s => ?_⟩
  obtain ⟨bank, a, rfl⟩ := exists_idx i
  refine ⟨encodeFrame bank a v, _, exec_eq _ s, ?_⟩
  simp [State.after_decodeFrame, State.rf_writeEntry]

/-! ### STATUS and reset -/

theorem State.statusWord_code (s : State) : s.statusWord.extractLsb' 0 2 = s.rs.code := by
  unfold State.statusWord
  cases s.rs <;> cases s.cp <;> rfl

theorem State.statusWord_cp (s : State) : s.statusWord.getLsbD 2 = s.cp := by
  unfold State.statusWord
  cases s.rs <;> cases s.cp <;> rfl

theorem State.statusWord_high (s : State) : s.statusWord.extractLsb' 3 5 = 0#5 := by
  unfold State.statusWord
  cases s.rs <;> cases s.cp <;> rfl

/-- Settles O32: the answer is the STATUS word, field by field. -/
theorem statusRead : Obligations.StatusRead :=
  fun s => ⟨s.statusWord, exec_eq .status s, s.statusWord_code, s.statusWord_cp, s.statusWord_high⟩

@[simp] theorem State.rf_reset (i : Index) : State.reset.rf i = 0#8 := by
  simp [State.rf, State.written, State.reset]

/-- Settles O44: the logs and the watermarks by their values at reset, the other fields as `State.reset` writes them. -/
theorem resetValues : Obligations.ResetValues :=
  ⟨fun i => ⟨State.rf_reset i, State.log_reset i⟩, State.seenAt_reset, rfl, rfl, rfl, rfl⟩

/-! ### The ports and the line state (R23) -/

/-- What a SNAPSHOT keeps or hands over does not depend on the line state. -/
theorem State.storeSnap_withLine (r : Nat) (t : Vector (Option Byte) 32) (l : Line) (s : State) :
    ({ s with line := l } : State).storeSnap r t = { s.storeSnap r t with line := l } := by
  unfold State.storeSnap
  split <;> rfl

/-- Settles O35: of the three operations only SNAPSHOT branches, and not on the line state. -/
theorem lineStateHidden : Obligations.LineStateHidden := by
  intro p l s t e
  rw [exec_eq] at e ⊢
  cases e
  cases p with
  | get r i => rfl
  | snapshot r => exact congrArg _ (State.storeSnap_withLine r _ l (s.readEntry r (s.nextIndex r)))
  | status => rfl

/-! ### Who writes the register file (R15, R16) -/

/-- An instruction that cannot write leaves every log (R15, R28). -/
theorem State.writes_after {i : Instr} (h : i.mayWrite = false) (s : State) : (s.after i).writes = s.writes := by
  cases i with
  | wra a v => cases h
  | wrb a v => cases h
  | lf => cases h
  | reset => cases h
  | snapshot r => simp [State.after, State.snapshotRead]
  | _ => simp [State.after, apply_ite State.writes]

/-- A line is valid at its LF exactly when it has a digit and neither overflow nor a bad byte; it then spells its
accumulator (R77). -/
theorem Line.verdict_eq_frame_iff {l : Line} {w : Word} :
    l.verdict = .frame w ↔ (l.nz = true ∧ l.ovf = false ∧ l.bad = false) ∧ w = l.acc := by
  unfold Line.verdict
  cases l.bad <;> cases l.nz <;> cases l.ovf <;> simp [eq_comm]

/-- LF appends to one log, that of the entry a valid line's word names, and only where it is enabled (R77, R90). -/
theorem State.log_after_lf (s : State) (j : Index) :
    (s.after .lf).log j = s.log j ∨
      (s.byteEnabled = true ∧ (s.line.nz = true ∧ s.line.ovf = false ∧ s.line.bad = false) ∧
        j = idx (frameBank s.line.acc) (frameAddr s.line.acc) ∧
        (s.after .lf).log j = s.log j ++ [frameVal s.line.acc]) := by
  cases hb : s.byteEnabled with
  | false => exact .inl (by simp [State.after, hb])
  | true =>
    cases hv : s.line.verdict with
    | malformed c => exact .inl (by simp [State.after, hb, hv, State.log_congr s.endLine_writes])
    | frame w =>
      obtain ⟨hvalid, rfl⟩ := Line.verdict_eq_frame_iff.mp hv
      have hlog : (s.after .lf).log j =
          (s.writeEntry (idx (frameBank s.line.acc) (frameAddr s.line.acc)) (frameVal s.line.acc)).log j := by
        simp [State.after, hb, hv, State.log_congr (State.endLine_writes _)]
      rw [hlog, State.log_writeEntry]
      split
      · next hj => exact .inr ⟨rfl, hvalid, hj, by rw [hj]⟩
      · exact .inl rfl

theorem State.log_prefix_writeEntry (i j : Index) (v : Byte) (s : State) : s.log j <+: (s.writeEntry i v).log j := by
  rw [State.log_writeEntry]
  split
  · next hj =>
    rw [hj]
    exact List.prefix_append _ _
  · exact List.prefix_refl _

/-- No instruction but RESET takes anything from a log (R18). -/
theorem State.log_prefix_after {i : Instr} (hi : i ≠ .reset) (s : State) (j : Index) : s.log j <+: (s.after i).log j := by
  cases i with
  | wra a v => exact State.log_prefix_writeEntry _ j v s
  | wrb a v => exact State.log_prefix_writeEntry _ j v s
  | lf =>
    obtain h | ⟨-, -, -, h⟩ := s.log_after_lf j
    · rw [h]
    · rw [h]
      exact List.prefix_append _ _
  | reset => exact absurd rfl hi
  | _ => rw [State.log_congr (State.writes_after rfl s)]

/-! ### Control events (R28) -/

/-- Settles O42: the four change the three fields named or nothing, and cannot write. -/
theorem controlFrame : Obligations.ControlFrame := by
  intro i s t hi e
  rw [exec_eq] at e
  cases e
  have hw : (s.after i).writes = s.writes := State.writes_after (by obtain rfl | rfl | rfl | rfl := hi <;> rfl) s
  refine ⟨?_, State.rf_congr hw, State.log_congr hw⟩
  obtain rfl | rfl | rfl | rfl := hi <;> unfold State.after <;> dsimp only <;> split <;> rfl

/-! ### What a step is -/

/-- The state with the inputs that are left, once a step has taken its own. -/
def State.withInputs (ms : List Move) (bs : List Byte) (s : State) : State := { s with moves := ms, stream := bs }

/-- The step of each agent, in full. On its turn the engine holds, or runs the byte offered or its cancel-take where that is
enabled; the transport's byte is queued; a port operation or an event runs (R71, R72, R97, R99). -/
theorem State.afterStep_cases (s : State) :
    ((s.moves = [] ∨ s.moves.head? = some .engine) ∧ s.takeEnabled = false ∧ (s.byteEnabled = false ∨ s.stream = []) ∧
      s.afterStep = s.withInputs s.moves.tail s.stream) ∨
    (∃ b bs, (s.moves = [] ∨ s.moves.head? = some .engine) ∧ s.byteEnabled = true ∧ s.stream = b :: bs ∧
      s.afterStep = (s.withInputs s.moves.tail bs).after (decodeByte b)) ∨
    ((s.moves = [] ∨ s.moves.head? = some .engine) ∧ s.takeEnabled = true ∧
      s.afterStep = (s.withInputs s.moves.tail s.stream).after .cancelTake) ∨
    (∃ b, s.moves.head? = some (.offer b) ∧ s.afterStep = s.withInputs s.moves.tail (s.stream ++ [b])) ∨
    (∃ p, s.moves.head? = some (.port p) ∧
      s.afterStep = (s.withInputs s.moves.tail s.stream).after (decodePort p)) ∨
    (∃ e, s.moves.head? = some (.event e) ∧
      s.afterStep = (s.withInputs s.moves.tail s.stream).after (decodeEvent e)) := by
  unfold State.afterStep
  obtain ⟨ms, hm, hf⟩ | ⟨b, ms, hm, hf⟩ | ⟨p, ms, hm, hf⟩ | ⟨e, ms, hm, hf⟩ := s.fetch_cases
  · have hturn : s.moves = [] ∨ s.moves.head? = some .engine := hm.imp And.left (fun h => by rw [h]; rfl)
    have htail : s.moves.tail = ms := by
      obtain ⟨h, rfl⟩ | h := hm <;> rw [h] <;> rfl
    rw [hf, htail]
    obtain ⟨ht, he⟩ | ⟨b, bs, hb, hs, he⟩ | ⟨ht, hh, he⟩ := ({ s with moves := ms } : State).engineFetch_cases
    · exact .inr (.inr (.inl ⟨hturn, ht, by rw [he]; rfl⟩))
    · exact .inr (.inl ⟨b, bs, hturn, hb, hs, by rw [he]; rfl⟩)
    · exact .inl ⟨hturn, ht, hh, by rw [he]; rfl⟩
  · exact .inr (.inr (.inr (.inl ⟨b, by rw [hm]; rfl, by rw [hf, hm]; rfl⟩)))
  · exact .inr (.inr (.inr (.inr (.inl ⟨p, by rw [hm]; rfl, by rw [hf, hm]; rfl⟩))))
  · exact .inr (.inr (.inr (.inr (.inr ⟨e, by rw [hm]; rfl, by rw [hf, hm]; rfl⟩))))

/-- What no instruction breaks and no input touches, no step breaks. -/
theorem State.afterStep_keeps {P : State → Prop} (hinputs : ∀ ms bs s, P s → P (s.withInputs ms bs))
    (hafter : ∀ i s, P s → P (s.after i)) {s : State} (h : P s) : P s.afterStep := by
  obtain ⟨-, -, -, e⟩ | ⟨b, bs, -, -, -, e⟩ | ⟨-, -, e⟩ | ⟨b, -, e⟩ | ⟨p, -, e⟩ | ⟨ev, -, e⟩ := s.afterStep_cases
  · exact e ▸ hinputs _ _ s h
  · exact e ▸ hafter _ _ (hinputs _ _ s h)
  · exact e ▸ hafter _ _ (hinputs _ _ s h)
  · exact e ▸ hinputs _ _ s h
  · exact e ▸ hafter _ _ (hinputs _ _ s h)
  · exact e ▸ hafter _ _ (hinputs _ _ s h)

/-- The inputs are no part of any log. -/
theorem State.log_after_of_not_mayWrite {i : Instr} (h : i.mayWrite = false) (ms : List Move) (bs : List Byte) (s : State)
    (j : Index) : ((s.withInputs ms bs).after i).log j = s.log j :=
  State.log_congr (State.writes_after h (s.withInputs ms bs)) j

/-- Settles O50: of what a step can run, only LF and RESET can write. -/
theorem onlyFramesWrite : Obligations.OnlyFramesWrite := by
  intro s t j e
  rw [step_eq] at e
  cases e
  obtain ⟨-, -, -, e⟩ | ⟨b, bs, hturn, hb, hs, e⟩ | ⟨-, -, e⟩ | ⟨b, -, e⟩ | ⟨p, -, e⟩ | ⟨ev, hm, e⟩ := s.afterStep_cases <;>
    rw [e]
  · exact .inl rfl
  · by_cases hlf : b = 0x0A#8
    · subst hlf
      obtain h | ⟨-, hvalid, hj, h⟩ := (s.withInputs s.moves.tail bs).log_after_lf j
      · exact .inl h
      · exact .inr (.inl ⟨bs, hs, hturn, s.byteEnabled_iff.mp hb, hvalid, hj, h⟩)
    · exact .inl (State.log_after_of_not_mayWrite ((mayWrite_decodeByte b).trans (decide_eq_false hlf)) _ _ s j)
  · exact .inl (State.log_after_of_not_mayWrite rfl _ _ s j)
  · exact .inl rfl
  · exact .inl (State.log_after_of_not_mayWrite (mayWrite_decodePort p) _ _ s j)
  · by_cases hr : ev = .reset
    · subst hr
      exact .inr (.inr ⟨hm, State.log_resetBlock _ j⟩)
    · exact .inl (State.log_after_of_not_mayWrite ((mayWrite_decodeEvent ev).trans (decide_eq_false hr)) _ _ s j)

/-! ### The invariant -/

/-- The part of the invariant that speaks of the readers' tables and the logs. -/
structure State.ReadersInv (s : State) : Prop where
  seenWf : Table.wf 0 s.seen = true
  snapsWf : Table.wf noReads s.snaps = true
  seenBelow : ∀ r i, s.seenAt r i < (s.log i).length
  snapsOpen : ∀ r, unread (s.snapOf r) ≠ []

/-- The part of the invariant that speaks of the run state, the pending cancel and the line state. -/
structure State.ParserInv (s : State) : Prop where
  cpParsing : s.cp = true → s.rs.parsing = true
  lineClear : s.rs ≠ .inLine → s.line = Line.clear
  lineStarted : s.rs = .inLine → (s.line.nz || s.line.bad || s.line.crp) = true
  digitsFirst : s.line.nz = false → s.line.acc = 0#16 ∧ s.line.ovf = false

theorem State.inv_iff (s : State) : s.Inv ↔ s.ReadersInv ∧ s.ParserInv where
  mp h := ⟨⟨h.seenWf, h.snapsWf, h.seenBelow, h.snapsOpen⟩, ⟨h.cpParsing, h.lineClear, h.lineStarted, h.digitsFirst⟩⟩
  mpr := fun ⟨hr, hp⟩ => ⟨hr.seenWf, hr.snapsWf, hr.seenBelow, hr.snapsOpen, hp.cpParsing, hp.lineClear, hp.lineStarted,
    hp.digitsFirst⟩

/-! ### The readers' part -/

section
variable {s t : State}

/-- Growing logs keep every watermark a position of its log. -/
theorem State.ReadersInv.of_log_grows (h : s.ReadersInv) (hseen : t.seen = s.seen) (hsnaps : t.snaps = s.snaps)
    (hlog : ∀ i, s.log i <+: t.log i) : t.ReadersInv where
  seenWf := hseen ▸ h.seenWf
  snapsWf := hsnaps ▸ h.snapsWf
  seenBelow r i := by
    rw [State.seenAt_congr hseen]
    exact Nat.lt_of_lt_of_le (h.seenBelow r i) (hlog i).length_le
  snapsOpen r := by
    rw [State.snapOf_congr hsnaps]
    exact h.snapsOpen r

/-- A ReadEntry draws a position of the log for the new watermark (R43). -/
theorem State.ReadersInv.readEntry (h : s.ReadersInv) (r : Nat) (i : Index) : (s.readEntry r i).ReadersInv where
  seenWf := Table.wf_set _ _ h.seenWf
  snapsWf := h.snapsWf
  seenBelow r' i' := by
    rw [State.log_congr (s.readEntry_writes r i)]
    by_cases e : r' = r ∧ i' = i
    · obtain ⟨rfl, rfl⟩ := e
      rw [State.seenAt_readEntry_same _ _ h.seenWf]
      exact s.nextPos_lt r' i'
    · rw [State.seenAt_readEntry_other s e]
      exact h.seenBelow r' i'
  snapsOpen := h.snapsOpen

/-- A table is kept only while it has an entry left to read (R93). -/
theorem State.ReadersInv.storeSnap (h : s.ReadersInv) (r : Nat) (u : Vector (Option Byte) 32) :
    (s.storeSnap r u).ReadersInv where
  seenWf := by
    rw [State.storeSnap_seen]
    exact h.seenWf
  snapsWf := by
    rw [State.storeSnap_snaps]
    exact Table.wf_set _ _ h.snapsWf
  seenBelow r' i := by
    rw [State.seenAt_congr (s.storeSnap_seen r u), State.log_congr (s.storeSnap_writes r u)]
    exact h.seenBelow r' i
  snapsOpen r' := by
    rw [State.snapOf, State.storeSnap_snaps]
    by_cases e : r' = r
    · rw [e, Table.get_set_same _ _ h.snapsWf]
      split
      · exact unread_noReads
      · assumption
    · rw [Table.get_set_other e]
      exact h.snapsOpen r'

/-- RESET clears the logs and the watermarks together, and leaves the SNAPSHOTs in progress (R118, log entry 7). -/
theorem State.ReadersInv.resetBlock (h : s.ReadersInv) : s.resetBlock.ReadersInv where
  seenWf := Table.wf_nil
  snapsWf := h.snapsWf
  seenBelow r i := by simp
  snapsOpen := h.snapsOpen

theorem State.ReadersInv.after (h : s.ReadersInv) (i : Instr) : (s.after i).ReadersInv := by
  cases i with
  | get r j => exact h.readEntry r j
  | snapshot r => exact (h.readEntry r _).storeSnap r _
  | reset => exact h.resetBlock
  | _ =>
    exact h.of_log_grows (State.seen_after (by nofun) (by nofun) (by nofun) s) (State.snaps_after (by nofun) s)
      (State.log_prefix_after (by nofun) s)

/-! ### The parser's part -/

/-- Outside a line, with the line state clear, only the pending cancel is left to ask about. -/
theorem State.ParserInv.of_clear (hrs : s.rs ≠ .inLine) (hline : s.line = Line.clear)
    (hcp : s.cp = true → s.rs.parsing = true) : s.ParserInv where
  cpParsing := hcp
  lineClear _ := hline
  lineStarted e := absurd e hrs
  digitsFirst _ := hline ▸ ⟨rfl, rfl⟩

/-- `ParserInv` reads the run state, the pending cancel and the line state, and no other field. -/
theorem State.ParserInv.congr (h : s.ParserInv) (hrs : t.rs = s.rs) (hcp : t.cp = s.cp) (hline : t.line = s.line) :
    t.ParserInv := by
  obtain ⟨h1, h2, h3, h4⟩ := h
  constructor <;> simpa only [hrs, hcp, hline]

theorem State.ParserInv.inLineWith {l : Line} (hstart : (l.nz || l.bad || l.crp) = true)
    (hdigits : l.nz = false → l.acc = 0#16 ∧ l.ovf = false) : (s.inLineWith l).ParserInv where
  cpParsing _ := rfl
  lineClear e := absurd rfl e
  lineStarted _ := hstart
  digitsFirst := hdigits

/-- A digit starts the line and is the first or a later one (R74). -/
theorem State.ParserInv.hex (d : Digit) : (s.inLineWith (s.line.hex d)).ParserInv := .inLineWith rfl nofun

/-- A CR starts the line and leaves the digits (R75). -/
theorem State.ParserInv.cr (h : s.ParserInv) : (s.inLineWith s.line.cr).ParserInv :=
  .inLineWith (by simp [Line.cr]) h.digitsFirst

/-- An OTHER byte starts the line and leaves the digits (R76). -/
theorem State.ParserInv.other (h : s.ParserInv) : (s.inLineWith s.line.other).ParserInv :=
  .inLineWith (by simp [Line.other]) h.digitsFirst

/-- The end of a line is a line start, whatever cancel is pending (R77, R103). -/
theorem State.ParserInv.endLine : s.endLine.ParserInv := .of_clear (by simp) rfl fun _ => rfl

/-- An instruction that runs where it is enabled: elsewhere nothing is to show. -/
theorem State.ParserInv.ite {c : Prop} [Decidable c] (h : s.ParserInv) (ht : c → t.ParserInv) :
    (if c then t else s).ParserInv := by
  split
  · next hc => exact ht hc
  · exact h

/-- The cancel-take is at a line start, so the line state is clear already (R97). -/
theorem State.ParserInv.cancelTake (h : s.ParserInv) (ht : s.takeEnabled = true) :
    ({ s with rs := .stopped, cp := false } : State).ParserInv := by
  obtain ⟨hidle, -⟩ := s.takeEnabled_iff.mp ht
  exact .of_clear nofun (h.lineClear (by rw [hidle]; nofun)) nofun

theorem State.ParserInv.after (h : s.ParserInv) (i : Instr) : (s.after i).ParserInv := by
  cases i with
  | wra a v => exact h.congr rfl rfl rfl
  | wrb a v => exact h.congr rfl rfl rfl
  | cr => exact h.ite fun _ => h.cr
  | other b => exact h.ite fun _ => h.other
  | lf =>
    refine h.ite fun _ => ?_
    cases s.line.verdict with
    | frame w => exact .endLine
    | malformed c => exact .endLine
  | get r j => exact h.congr rfl rfl rfl
  | snapshot r =>
    exact h.congr (State.storeSnap_rs r _ _) (State.storeSnap_cp r _ _) (State.storeSnap_line r _ _)
  | status => exact h.congr rfl rfl rfl
  | start =>
    unfold State.after
    dsimp only
    split
    · exact h
    · exact .of_clear nofun rfl nofun
  | cancel => exact h.ite fun hp => ⟨fun _ => hp, h.lineClear, h.lineStarted, h.digitsFirst⟩
  | cancelTake => exact h.ite h.cancelTake
  | transportFault => exact h.ite fun _ => .of_clear nofun rfl nofun
  | reset => exact .of_clear nofun rfl nofun
  | _ => exact h.ite fun _ => .hex _

/-! ### The whole -/

/-- The inputs are no part of the invariant. -/
theorem State.Inv.withInputs (h : s.Inv) (ms : List Move) (bs : List Byte) : (s.withInputs ms bs).Inv :=
  ⟨h.seenWf, h.snapsWf, h.seenBelow, h.snapsOpen, h.cpParsing, h.lineClear, h.lineStarted, h.digitsFirst⟩

theorem State.Inv.after (h : s.Inv) (i : Instr) : (s.after i).Inv := by
  obtain ⟨hr, hp⟩ := s.inv_iff.mp h
  exact (s.after i).inv_iff.mpr ⟨hr.after i, hp.after i⟩

end

/-- Settles O47: every instruction keeps the readers' part and the parser's part, and the inputs are no part of either. -/
theorem invKept : Obligations.InvKept := by
  intro s t h e
  rw [step_eq] at e
  cases e
  exact State.afterStep_keeps (fun ms bs _ h => h.withInputs ms bs) (fun i _ h => h.after i) h

/-- Settles O48: no table holds anything, every watermark is the position of its log's initial 0, and the line state is
clear. -/
theorem invAtReset : Obligations.InvAtReset := by
  refine State.reset.inv_iff.mpr ⟨⟨rfl, rfl, fun r i => ?_, fun r => ?_⟩, .of_clear nofun rfl nofun⟩
  · rw [State.seenAt_reset, State.log_reset]
    exact Nat.one_pos
  · rw [State.snapOf_reset]
    exact unread_noReads

end Machine
end Sys2Proof
end

section
/-!
PROOFS. Memory: reads, and what they keep (R18, R19, R40, R42, R43, R45). A draw lies between the reader's watermark and the
end of the log, so logs grow at their end only and watermarks never go back, in a step and along a run.
-/

namespace Sys2Proof.Machine

/-! ### The draw of a ReadEntry -/

/-- Every position from the watermark on is some draw. -/
theorem exists_pickPos_eq {lo len k : Nat} (hlo : lo ≤ k) (hk : k < len) : ∃ x, pickPos x lo len = k := by
  refine ⟨k - lo, ?_⟩
  rw [pickPos, if_pos (by omega), Nat.mod_eq_of_lt (by omega)]
  omega

/-- Settles O28: a draw lies in the range, and the distance from the watermark draws each position of it. -/
theorem drawRange : Obligations.DrawRange := by
  intro lo len h k
  constructor
  · rintro ⟨x, rfl⟩
    obtain ⟨hlo, hlen⟩ := pickPos_range (x := x) h
    exact ⟨hlo, by omega⟩
  · rintro ⟨hlo, hlen⟩
    exact exists_pickPos_eq hlo (by omega)

section
variable {s t u : State}

theorem State.seenAt_le_nextPos (h : s.Inv) (r : Nat) (i : Index) : s.seenAt r i ≤ s.nextPos r i :=
  (pickPos_range (h.seenBelow r i)).1

theorem State.nextPos_le (s : State) (r : Nat) (i : Index) : s.nextPos r i ≤ (s.log i).length - 1 :=
  Nat.le_sub_one_of_lt (s.nextPos_lt r i)

/-- The value read is the log's element at the position drawn (R43). -/
theorem State.log_getElem?_nextPos (s : State) (r : Nat) (i : Index) :
    (s.log i)[s.nextPos r i]? = some (s.readValue r i) := by
  have h := s.nextPos_lt r i
  simp [State.readValue, List.getD_eq_getElem?_getD, List.getElem?_eq_getElem h]

/-- A read of the newest position returns the entry's value (R18, R45). -/
theorem State.readValue_eq_rf {r : Nat} {i : Index} (h : s.nextPos r i = (s.log i).length - 1) :
    s.readValue r i = s.rf i := by
  have hlast := s.log_getLast? i
  rw [List.getLast?_eq_getElem?, ← h, s.log_getElem?_nextPos] at hlast
  exact Option.some.inj hlast

/-- Settles O29: the position is the draw, and one entry of the watermark table is written. -/
theorem getRead : Obligations.GetRead := by
  intro r i s h
  refine ⟨s.nextPos r i, s.readEntry r i, exec_eq (.get r i) s, State.seenAt_le_nextPos h r i, s.nextPos_le r i,
    ⟨s.readValue r i, s.log_getElem?_nextPos r i, rfl⟩, State.seenAt_readEntry_same r i h.seenWf, ?_, rfl⟩
  exact fun r' i' hne => s.seenAt_readEntry_other hne

/-! ### Logs grow at their end, watermarks never go back -/

/-- What a reader can rely on between two states: every log has only grown at its end, and no watermark has gone back. -/
def State.CoheresTo (s t : State) : Prop := ∀ (r : Nat) (i : Index), s.log i <+: t.log i ∧ s.seenAt r i ≤ t.seenAt r i

theorem State.CoheresTo.refl (s : State) : s.CoheresTo s := fun _ _ => ⟨List.prefix_refl _, Nat.le_refl _⟩

theorem State.CoheresTo.trans (h : s.CoheresTo t) (h' : t.CoheresTo u) : s.CoheresTo u := fun r i =>
  ⟨(h r i).1.trans (h' r i).1, (h r i).2.trans (h' r i).2⟩

/-- A ReadEntry moves a watermark forward, to the position it draws, or leaves it. -/
theorem State.seenAt_le_readEntry (h : s.Inv) (r r' : Nat) (i i' : Index) :
    s.seenAt r' i' ≤ (s.readEntry r i).seenAt r' i' := by
  by_cases e : r' = r ∧ i' = i
  · obtain ⟨rfl, rfl⟩ := e
    rw [State.seenAt_readEntry_same _ _ h.seenWf]
    exact State.seenAt_le_nextPos h r' i'
  · rw [State.seenAt_readEntry_other s e]

theorem State.seenAt_le_after {i : Instr} (h : s.Inv) (hi : i ≠ .reset) (r : Nat) (j : Index) :
    s.seenAt r j ≤ (s.after i).seenAt r j := by
  cases i with
  | get r' j' => exact State.seenAt_le_readEntry h r' r j' j
  | snapshot r' =>
    exact (State.seenAt_le_readEntry h r' r _ j).trans_eq (State.seenAt_congr (s.seen_snapshotRead r') r j).symm
  | reset => exact absurd rfl hi
  | _ => exact (State.seenAt_congr (State.seen_after (by nofun) (by nofun) (by nofun) s) r j).ge

theorem State.coheresTo_after {i : Instr} (h : s.Inv) (hi : i ≠ .reset) : s.CoheresTo (s.after i) := fun r j =>
  ⟨State.log_prefix_after hi s j, State.seenAt_le_after h hi r j⟩

/-- A byte decodes to an instruction of a byte row only (R67). -/
theorem decodeByte_ne (b : Byte) (i : Instr) (hhex : hexDigit i = none) (hcr : i ≠ .cr) (hlf : i ≠ .lf)
    (hother : ∀ b, i ≠ .other b) : decodeByte b ≠ i := by
  rintro rfl
  obtain ⟨d, -, hd⟩ | ⟨-, hb⟩ | ⟨-, hb⟩ | ⟨-, -, -, hb⟩ := decodeByte_cases b
  · rw [hhex] at hd
    cases hd
  · exact hcr hb
  · exact hlf hb
  · exact hother b hb

/-- A step takes its inputs, and then holds or runs one instruction; that is RESET only where the host's RESET moves. -/
theorem State.afterStep_hold_or_run (s : State) : ∃ ms bs,
    s.afterStep = s.withInputs ms bs ∨
    ∃ i, (i = .reset → s.moves.head? = some (.event .reset)) ∧ s.afterStep = (s.withInputs ms bs).after i := by
  obtain ⟨-, -, -, e⟩ | ⟨b, bs, -, -, -, e⟩ | ⟨-, -, e⟩ | ⟨b, -, e⟩ | ⟨p, -, e⟩ | ⟨ev, hm, e⟩ := s.afterStep_cases
  · exact ⟨_, _, .inl e⟩
  · exact ⟨_, _, .inr ⟨decodeByte b, fun h => absurd h (decodeByte_ne b .reset rfl nofun nofun nofun), e⟩⟩
  · exact ⟨_, _, .inr ⟨.cancelTake, nofun, e⟩⟩
  · exact ⟨_, _, .inl e⟩
  · exact ⟨_, _, .inr ⟨decodePort p, by cases p <;> nofun, e⟩⟩
  · refine ⟨_, _, .inr ⟨decodeEvent ev, fun h => ?_, e⟩⟩
    cases ev with
    | reset => exact hm
    | _ => cases h

theorem State.coheresTo_afterStep (h : s.Inv) (hr : s.moves.head? ≠ some (.event .reset)) :
    s.CoheresTo s.afterStep := by
  obtain ⟨ms, bs, e | ⟨i, hi, e⟩⟩ := s.afterStep_hold_or_run
  · exact e ▸ State.CoheresTo.refl s
  · exact e ▸ State.coheresTo_after (h.withInputs ms bs) (mt hi hr)

end

/-- Settles O60: an instruction that is no RESET takes nothing from a log and draws at or after the watermark. -/
theorem stepCoherence : Obligations.StepCoherence := by
  intro s t h e hr
  rw [step_eq] at e
  cases e
  exact State.coheresTo_afterStep h hr

/-- Settles O51: by induction along the run, with the invariant kept by every step; the moves the agents list are no part of
either. -/
theorem readerCoherence : Obligations.ReaderCoherence := by
  intro run m n hrun hinv hmn
  suffices h : (∀ j, m ≤ j → j < n → (run j).moves.head? ≠ some (.event .reset)) →
      (run n).Inv ∧ (run m).CoheresTo (run n) from fun hr => (h hr).2
  induction n, hmn using Nat.le_induction with
  | base => exact fun _ => ⟨hinv, State.CoheresTo.refl _⟩
  | succ n hmn ih =>
    intro hr
    obtain ⟨hn, hcoh⟩ := ih fun j hj hjn => hr j hj (hjn.trans n.lt_succ_self)
    obtain ⟨t, more, hstep, hnext⟩ := hrun n
    rw [hnext]
    exact ⟨(invKept _ t hn hstep).withInputs _ _, hcoh.trans (stepCoherence _ t hn hstep (hr n hmn n.lt_succ_self))⟩

/-! ### The answers of one step -/

/-- What an instruction answers comes before the older answers, and each ReadEntry among it is the read of its own draw. -/
theorem State.exists_replies_after (i : Instr) (s : State) :
    ∃ new, (s.after i).replies = new ++ s.replies ∧ ∀ r j v, Reply.entry r j v ∈ new → v = s.readValue r j := by
  cases i with
  | get r j => exact ⟨[.entry r j (s.readValue r j)], rfl, by simp +contextual⟩
  | snapshot r =>
    dsimp only [State.after, State.snapshotRead]
    rw [State.storeSnap_replies, State.readEntry_replies]
    split
    · exact ⟨[.table r _, .entry r _ _], rfl, by simp +contextual⟩
    · exact ⟨[.entry r _ _], rfl, by simp +contextual⟩
  | status => exact ⟨[.status s.statusWord], rfl, by simp⟩
  | lf => exact ⟨[], by cases h : s.line.verdict <;> simp [State.after, h, apply_ite State.replies], by simp⟩
  | _ => exact ⟨[], by simp [State.after, apply_ite State.replies], by simp⟩

theorem newReplies_eq {s t : State} {new : List Reply} (h : t.replies = new ++ s.replies) : newReplies s t = new := by
  rw [newReplies, h, List.length_append, Nat.add_sub_cancel, List.take_left]

/-- A ReadEntry answered in a step returns the value at the draw of the state before it. -/
theorem State.eq_readValue_of_mem_newReplies {s : State} {r : Nat} {i : Index} {v : Byte}
    (h : Reply.entry r i v ∈ newReplies s s.afterStep) : v = s.readValue r i := by
  obtain ⟨ms, bs, e | ⟨j, -, e⟩⟩ := s.afterStep_hold_or_run
  · rw [e, newReplies_eq (s := s) (t := s.withInputs ms bs) (new := []) rfl] at h
    cases h
  · obtain ⟨new, hnew, hread⟩ := (s.withInputs ms bs).exists_replies_after j
    rw [e, newReplies_eq (s := s) hnew] at h
    exact hread r i v h

/-- Settles O59: every read, from the first step on, is of the newest position. -/
theorem immediateVisibility : Obligations.ImmediateVisibility := by
  intro run hrun hlast r i n₀ _
  refine ⟨0, fun n _ v hv => ?_⟩
  obtain ⟨t, more, hstep, hnext⟩ := hrun n
  rw [step_eq] at hstep
  cases hstep
  rw [hnext] at hv
  rw [State.eq_readValue_of_mem_newReplies hv, State.readValue_eq_rf (hlast n r i)]

end Sys2Proof.Machine
end

section
/-!
PROOFS. Memory: the reader ports (R37, R38, R43, R44, R93). What a port operation leaves alone, that the engine's steps do not
depend on the readers, and the reads of a SNAPSHOT up to the table it hands over.
-/

namespace Sys2Proof.Machine

/-! ### What a port operation leaves alone (R37) -/

/-- A port operation changes only what belongs to the readers. -/
theorem State.after_decodePort (p : PortOp) (s : State) :
    s.after (decodePort p) =
      { s with
        seen := (s.after (decodePort p)).seen, snaps := (s.after (decodePort p)).snaps
        replies := (s.after (decodePort p)).replies, draws := (s.after (decodePort p)).draws } := by
  cases p with
  | get r i => rfl
  | snapshot r =>
    simp only [decodePort, State.after]
    rw [State.snapshotRead_eq]
  | status => rfl

/-- A port operation changes no other reader's watermarks (R19). -/
theorem State.seenAt_after_decodePort {p : PortOp} {r : Nat} (hg : ∀ i, p ≠ .get r i) (hs : p ≠ .snapshot r) (s : State)
    (i : Index) : (s.after (decodePort p)).seenAt r i = s.seenAt r i := by
  cases p with
  | get r' i' => exact s.seenAt_readEntry_other fun ⟨hr, _⟩ => hg i' (by rw [hr])
  | snapshot r' =>
    exact (State.seenAt_congr (s.seen_snapshotRead r') r i).trans
      (s.seenAt_readEntry_other fun ⟨hr, _⟩ => hs (by rw [hr]))
  | status => rfl

/-- Settles O33: a port operation changes the readers' fields only, and of the watermarks its own reader's. -/
theorem readersFrame : Obligations.ReadersFrame := by
  intro p s t e
  rw [exec_eq] at e
  cases e
  have hframe := s.after_decodePort p
  have hw := State.writes_after (mayWrite_decodePort p) s
  refine ⟨hframe, State.rf_congr hw, State.log_congr hw, ?_, fun r i hg hs => State.seenAt_after_decodePort hg hs s i⟩
  exact State.statusWord_congr (by rw [hframe]) (by rw [hframe])

/-! ### The block without its readers (R38) -/

/-- The state with nothing of the readers in it: no watermark, no SNAPSHOT, no answer, no draw. -/
def State.withoutReaders (s : State) : State := { s with seen := [], snaps := [], replies := [], draws := 0 }

theorem State.withoutReaders_after_decodePort (p : PortOp) (s : State) :
    (s.after (decodePort p)).withoutReaders = s.withoutReaders := by
  rw [State.after_decodePort]
  rfl

theorem State.quiescent_withoutReaders (s : State) : s.withoutReaders.quiescent = s.quiescent := rfl

/-- States that agree but for the readers hold the same block. -/
theorem State.block_eq_of_withoutReaders_eq {s t : State} (h : t.withoutReaders = s.withoutReaders) :
    t.writes = s.writes ∧ t.rs = s.rs ∧ t.line = s.line ∧ t.cp = s.cp ∧ t.stream = s.stream := by
  obtain ⟨hwrites, -, hrs, hline, hcp, hstream, -⟩ := State.mk.inj h
  exact ⟨hwrites, hrs, hline, hcp, hstream⟩

theorem decodeByte_ne_decodePort (b : Byte) (p : PortOp) : decodeByte b ≠ decodePort p := by
  cases p with
  | get r i => exact decodeByte_ne b (.get r i) rfl nofun nofun nofun
  | snapshot r => exact decodeByte_ne b (.snapshot r) rfl nofun nofun nofun
  | status => exact decodeByte_ne b .status rfl nofun nofun nofun

/-- An instruction does to the rest of the block what it does without the readers. -/
theorem State.after_withoutReaders {i : Instr} (hi : ∀ p, i ≠ decodePort p) (s : State) :
    s.withoutReaders.after i = (s.after i).withoutReaders := by
  cases i with
  | get r j => exact absurd rfl (hi (.get r j))
  | snapshot r => exact absurd rfl (hi (.snapshot r))
  | status => exact absurd rfl (hi .status)
  | wra a v => rfl
  | wrb a v => rfl
  | reset => rfl
  | lf =>
    dsimp only [State.after]
    rw [apply_ite State.withoutReaders]
    refine ite_congr rfl (fun _ => ?_) fun _ => rfl
    rw [show s.withoutReaders.line = s.line from rfl]
    cases s.line.verdict <;> rfl
  | _ =>
    dsimp only [State.after]
    rw [apply_ite State.withoutReaders]
    rfl

/-! The engine's turn when no move is listed. -/

theorem State.fetch_of_moves_nil {s : State} (hm : s.moves = []) : s.fetch = s.engineFetch := by
  unfold State.fetch
  rw [hm]

theorem State.afterStep_take {s : State} (hm : s.moves = []) (ht : s.takeEnabled = true) :
    s.afterStep = s.after .cancelTake := by
  unfold State.afterStep
  rw [State.fetch_of_moves_nil hm, State.engineFetch_take ht]

theorem State.afterStep_byte {s : State} {b : Byte} {bs : List Byte} (hm : s.moves = []) (hb : s.byteEnabled = true)
    (hs : s.stream = b :: bs) : s.afterStep = ({ s with stream := bs } : State).after (decodeByte b) := by
  unfold State.afterStep
  rw [State.fetch_of_moves_nil hm, State.engineFetch_byte hb hs]

theorem State.afterStep_hold {s : State} (hm : s.moves = []) (ht : s.takeEnabled = false)
    (h : s.byteEnabled = false ∨ s.stream = []) : s.afterStep = s := by
  unfold State.afterStep
  rw [State.fetch_of_moves_nil hm, State.engineFetch_hold ht h]

/-- The engine's turn does to the rest of the block what it does without the readers. -/
theorem State.afterStep_withoutReaders {s : State} (hm : s.moves = []) :
    s.withoutReaders.afterStep = s.afterStep.withoutReaders := by
  obtain ⟨ht, -⟩ | ⟨b, bs, hb, hs, -⟩ | ⟨ht, hh, -⟩ := s.engineFetch_cases
  · rw [State.afterStep_take hm ht, State.afterStep_take (s := s.withoutReaders) hm ht]
    exact s.after_withoutReaders (by rintro ⟨⟩ <;> nofun)
  · rw [State.afterStep_byte hm hb hs, State.afterStep_byte (s := s.withoutReaders) hm hb hs]
    exact ({ s with stream := bs } : State).after_withoutReaders (decodeByte_ne_decodePort b)
  · rw [State.afterStep_hold hm ht hh, State.afterStep_hold (s := s.withoutReaders) hm ht hh]

/-- Settles O34: states that agree but for the readers enable the same engine step, which leaves states that agree so. -/
theorem readersNeverDelay : Obligations.ReadersNeverDelay := by
  intro p s t e
  rw [exec_eq] at e
  cases e
  have hsame := s.withoutReaders_after_decodePort p
  refine ⟨by rw [← State.quiescent_withoutReaders, hsame, State.quiescent_withoutReaders], fun s' t' hm hs ht => ?_⟩
  rw [step_eq] at hs ht
  cases hs
  cases ht
  apply State.block_eq_of_withoutReaders_eq
  rw [← State.afterStep_withoutReaders hm, ← State.afterStep_withoutReaders ((State.moves_after _ s).trans hm), hsame]

/-! ### The reads of a SNAPSHOT (R93) -/

/-- Reading an entry takes it from those left. -/
theorem length_unread_snapSet {u : Vector (Option Byte) 32} {i : Index} (v : Byte) (h : snapGet u i = none) :
    (unread (snapSet u i v)).length + 1 = (unread u).length := by
  have hnodup : (unread u).Nodup := List.Nodup.filter _ (by decide)
  have herase : unread (snapSet u i v) = (unread u).erase i := by
    rw [hnodup.erase_eq_filter, unread, unread, List.filter_filter]
    refine List.filter_congr fun j _ => ?_
    rw [snapGet_snapSet]
    by_cases hj : j = i <;> simp [hj]
  rw [herase, List.length_erase_add_one (mem_unread.mpr h)]

/-- The table handed over holds what the SNAPSHOT read. -/
theorem getElem_snapTable {u : Vector (Option Byte) 32} {j : Index} (h : snapGet u j ≠ none) :
    some ((snapTable u)[j.toNat]'j.isLt) = snapGet u j := by
  obtain ⟨v, hv⟩ := Option.ne_none_iff_exists'.mp h
  have hget : u[j.toNat]'j.isLt = some v := hv
  simp [snapTable, hget, hv]

/-- Reader `r`'s table with its SNAPSHOT's next read in it. -/
def State.snapNext (s : State) (r : Nat) : Vector (Option Byte) 32 :=
  snapSet (s.snapOf r) (s.nextIndex r) (s.readValue r (s.nextIndex r))

section
variable {r : Nat} {s : State}

theorem State.snapGet_snapNext (s : State) (r : Nat) (j : Index) : snapGet (s.snapNext r) j =
    if j = s.nextIndex r then some (s.readValue r (s.nextIndex r)) else snapGet (s.snapOf r) j :=
  snapGet_snapSet _ _ j _

/-- The next read is the last exactly when every other entry has been read. -/
theorem State.unread_snapNext_eq_nil_iff :
    unread (s.snapNext r) = [] ↔ ∀ j, j ≠ s.nextIndex r → snapGet (s.snapOf r) j ≠ none := by
  simp only [List.eq_nil_iff_forall_not_mem, mem_unread, State.snapGet_snapNext]
  refine forall_congr' fun j => ?_
  by_cases h : j = s.nextIndex r <;> simp [h]

theorem State.unread_snapNext_ne_nil_iff :
    unread (s.snapNext r) ≠ [] ↔ ∃ j, j ≠ s.nextIndex r ∧ snapGet (s.snapOf r) j = none := by
  simp [State.unread_snapNext_eq_nil_iff]

/-- A SNAPSHOT's read is of an entry it has not read yet. -/
theorem State.snapGet_nextIndex (h : s.Inv) (r : Nat) : snapGet (s.snapOf r) (s.nextIndex r) = none :=
  mem_unread.mp (s.nextIndex_mem r (h.snapsOpen r))

theorem State.ne_nextIndex_of_read (h : s.Inv) {i : Index} {v : Byte} (hi : snapGet (s.snapOf r) i = some v) :
    i ≠ s.nextIndex r := by
  rintro rfl
  rw [State.snapGet_nextIndex h r] at hi
  cases hi

theorem State.length_unread_snapNext {n : Nat} (h : s.Inv) (hn : (unread (s.snapOf r)).length = n + 1) :
    (unread (s.snapNext r)).length = n :=
  Nat.succ.inj ((length_unread_snapSet _ (State.snapGet_nextIndex h r)).trans hn)

/-- A SNAPSHOT's read leaves every watermark but that of the entry it reads. -/
theorem State.seenAt_snapshotRead_other {r' : Nat} {i : Index} (s : State) (h : ¬(r' = r ∧ i = s.nextIndex r)) :
    (s.snapshotRead r).seenAt r' i = s.seenAt r' i :=
  (State.seenAt_congr (s.seen_snapshotRead r) r' i).trans (s.seenAt_readEntry_other h)

theorem State.seenAt_snapshotRead_same (h : s.Inv) (r : Nat) :
    (s.snapshotRead r).seenAt r (s.nextIndex r) = s.nextPos r (s.nextIndex r) :=
  (State.seenAt_congr (s.seen_snapshotRead r) r _).trans (State.seenAt_readEntry_same r _ h.seenWf)

/-- With entries left, the value read joins the reader's table and is the only answer. -/
theorem State.snapshotRead_more (h : s.Inv) (hmore : ∃ j, j ≠ s.nextIndex r ∧ snapGet (s.snapOf r) j = none) :
    (s.snapshotRead r).replies = .entry r (s.nextIndex r) (s.readValue r (s.nextIndex r)) :: s.replies ∧
    (s.snapshotRead r).snapOf r = s.snapNext r := by
  have hleft := State.unread_snapNext_ne_nil_iff.mpr hmore
  refine ⟨?_, (State.snapOf_snapshotRead_same r h.snapsWf).trans (if_neg hleft)⟩
  exact (State.storeSnap_replies _ _ _).trans (if_neg hleft)

/-- The read of the last entry hands the whole table over and ends the SNAPSHOT. -/
theorem State.snapshotRead_last (h : s.Inv) (hlast : ∀ j, j ≠ s.nextIndex r → snapGet (s.snapOf r) j ≠ none) :
    (s.snapshotRead r).replies = .table r (snapTable (s.snapNext r)) ::
      .entry r (s.nextIndex r) (s.readValue r (s.nextIndex r)) :: s.replies ∧
    (s.snapshotRead r).snapOf r = noReads := by
  have hnone := State.unread_snapNext_eq_nil_iff.mpr hlast
  refine ⟨?_, (State.snapOf_snapshotRead_same r h.snapsWf).trans (if_pos hnone)⟩
  exact (State.storeSnap_replies _ _ _).trans (if_pos hnone)

/-- The table handed over at the last read holds the value read, and what was read before. -/
theorem State.getElem_snapTable_snapNext (hlast : ∀ j, j ≠ s.nextIndex r → snapGet (s.snapOf r) j ≠ none) (j : Index) :
    some ((snapTable (s.snapNext r))[j.toNat]'j.isLt) =
      if j = s.nextIndex r then some (s.readValue r (s.nextIndex r)) else snapGet (s.snapOf r) j := by
  rw [← State.snapGet_snapNext]
  exact getElem_snapTable fun hj =>
    List.not_mem_nil (State.unread_snapNext_eq_nil_iff.mpr hlast ▸ mem_unread.mpr hj)

end

/-- Settles O30: the entry is the one drawn from those left, its read is a ReadEntry, and the table is kept or handed over
as entries are left or not. -/
theorem snapshotRead : Obligations.SnapshotRead := by
  intro r s h
  refine ⟨s.nextIndex r, s.nextPos r (s.nextIndex r), s.readValue r (s.nextIndex r), s.snapshotRead r,
    exec_eq (.snapshot r) s, State.snapGet_nextIndex h r, State.seenAt_le_nextPos h r _, s.nextPos_le r _,
    s.log_getElem?_nextPos r _, State.seenAt_snapshotRead_same h r, fun r' i' hne => s.seenAt_snapshotRead_other hne,
    fun hmore => ?_, fun hlast => ?_, fun r' hne => s.snapOf_snapshotRead_other hne, s.snapshotRead_eq r⟩
  · obtain ⟨hreplies, htable⟩ := State.snapshotRead_more h hmore
    exact ⟨hreplies, fun j => by rw [htable, State.snapGet_snapNext]⟩
  · obtain ⟨hreplies, hended⟩ := State.snapshotRead_last h hlast
    exact ⟨fun j => by rw [hended, snapGet_noReads], _, hreplies, State.getElem_snapTable_snapNext hlast⟩

/-! ### A whole SNAPSHOT (R93) -/

/-- From `s` to `t` reader `r`'s SNAPSHOT has been completed in `n` reads: the table handed over holds, for each entry not
read yet at `s`, the log element at a position from the watermark on, where the watermark now stands; for each other entry
what was read before. -/
structure State.SnapshotDone (r n : Nat) (s t : State) (table : Vector Byte 32) : Prop where
  handed : t.replies.head? = some (.table r table)
  ended : t.snapOf r = noReads
  read : ∀ i : Index, snapGet (s.snapOf r) i = none → ∃ k, s.seenAt r i ≤ k ∧ k ≤ (s.log i).length - 1 ∧
    t.seenAt r i = k ∧ (s.log i)[k]? = some (table[i.toNat]'i.isLt)
  kept : ∀ (i : Index) (v : Byte), snapGet (s.snapOf r) i = some v →
    t.seenAt r i = s.seenAt r i ∧ table[i.toNat]'i.isLt = v
  others : ∀ r' i, r' ≠ r → t.seenAt r' i = s.seenAt r' i
  frame : t = { s with seen := t.seen, snaps := t.snaps, replies := t.replies, draws := s.draws + n }

section
variable {r n : Nat} {s t : State} {table : Vector Byte 32}

/-- The read of the last entry completes a SNAPSHOT. -/
theorem State.snapshotDone_last (h : s.Inv) (hlast : ∀ j, j ≠ s.nextIndex r → snapGet (s.snapOf r) j ≠ none) :
    State.SnapshotDone r 1 s (s.snapshotRead r) (snapTable (s.snapNext r)) := by
  obtain ⟨hreplies, hended⟩ := State.snapshotRead_last h hlast
  have htable := State.getElem_snapTable_snapNext hlast
  refine ⟨by rw [hreplies, List.head?_cons], hended, fun i hi => ?_, fun i v hi => ?_,
    fun r' i hne => s.seenAt_snapshotRead_other fun e => hne e.1, s.snapshotRead_eq r⟩
  · obtain rfl : i = s.nextIndex r := by_contra fun hne => hlast i hne hi
    refine ⟨_, State.seenAt_le_nextPos h r _, s.nextPos_le r _, State.seenAt_snapshotRead_same h r, ?_⟩
    rw [s.log_getElem?_nextPos, htable, if_pos rfl]
  · have hne := State.ne_nextIndex_of_read h hi
    refine ⟨s.seenAt_snapshotRead_other fun e => hne e.2, Option.some.inj ?_⟩
    rw [htable, if_neg hne, hi]

/-- A read with entries left, before a SNAPSHOT completed in `n` reads, makes it one of `n + 1`. -/
theorem State.SnapshotDone.cons (h : s.Inv) (hmore : ∃ j, j ≠ s.nextIndex r ∧ snapGet (s.snapOf r) j = none)
    (hd : State.SnapshotDone r n (s.snapshotRead r) t table) : State.SnapshotDone r (n + 1) s t table := by
  have hsnap (j : Index) := (congrArg (snapGet · j) (State.snapshotRead_more h hmore).2).trans (s.snapGet_snapNext r j)
  have hlog := State.log_congr (congrArg State.writes (s.snapshotRead_eq r))
  obtain ⟨hhanded, hended, hread, hkept, hothers, hframe⟩ := hd
  refine ⟨hhanded, hended, fun i hi => ?_, fun i v hi => ?_, fun r' i hne => ?_, ?_⟩
  · by_cases e : i = s.nextIndex r
    · obtain ⟨hseen, hval⟩ := hkept i _ ((hsnap i).trans (if_pos e))
      subst e
      rw [State.seenAt_snapshotRead_same h] at hseen
      exact ⟨_, State.seenAt_le_nextPos h r _, s.nextPos_le r _, hseen, by rw [s.log_getElem?_nextPos, hval]⟩
    · have hread := hread i (((hsnap i).trans (if_neg e)).trans hi)
      rwa [s.seenAt_snapshotRead_other fun e' => e e'.2, hlog] at hread
  · have hne := State.ne_nextIndex_of_read h hi
    rw [← s.seenAt_snapshotRead_other (r := r) (r' := r) fun e => hne e.2]
    exact hkept i v (((hsnap i).trans (if_neg hne)).trans hi)
  · exact (hothers r' i hne).trans (s.seenAt_snapshotRead_other fun e => hne e.1)
  · rw [hframe, s.snapshotRead_eq r, Nat.add_right_comm]
    rfl

/-- As many reads as entries are left complete a SNAPSHOT. -/
theorem State.exists_snapshotDone (h : s.Inv) (hn : (unread (s.snapOf r)).length = n + 1) :
    ∃ t table, execTimes (n + 1) (.snapshot r) s = .next t ∧ State.SnapshotDone r (n + 1) s t table := by
  induction n generalizing s with
  | zero =>
    have hnil := List.length_eq_zero_iff.mp (State.length_unread_snapNext h hn)
    exact ⟨_, _, by rw [execTimes, exec_eq]; rfl, State.snapshotDone_last h (State.unread_snapNext_eq_nil_iff.mp hnil)⟩
  | succ n ih =>
    have hlen := State.length_unread_snapNext h hn
    have hmore := State.unread_snapNext_ne_nil_iff.mp (List.ne_nil_of_length_eq_add_one hlen)
    rw [← (State.snapshotRead_more h hmore).2] at hlen
    obtain ⟨t, table, hrun, hdone⟩ := ih (h.after (.snapshot r)) hlen
    exact ⟨t, table, by rw [execTimes, exec_eq]; exact hrun, hdone.cons h hmore⟩

end

/-- Settles O31: 32 entries are left of a SNAPSHOT that has read nothing, so 32 reads complete it. -/
theorem snapshotCompletes : Obligations.SnapshotCompletes := by
  intro r s h hsnap
  have hn : (unread (s.snapOf r)).length = 31 + 1 := by
    rw [hsnap]
    decide
  obtain ⟨t, table, hrun, hdone⟩ := State.exists_snapshotDone h hn
  refine ⟨t, table, hrun, hdone.handed, hdone.ended, fun i => hdone.read i ?_, hdone.others, hdone.frame⟩
  rw [hsnap, snapGet_noReads]

end Sys2Proof.Machine
end

section
/-!
PROOFS. Memory: whole lines (R40, R73, R77, R78, R87, R99). The line state is a fold over the bytes of the line and judges it
as the whole-line rule does, so each line has its one effect and the effects follow one another in stream order.
-/

namespace Sys2Proof.Machine

/-! ### Bodies and digits -/

@[simp] theorem lineBody_append_cr (xs : List Byte) : lineBody (xs ++ [0x0D#8]) = xs := by simp [lineBody]

theorem lineBody_of_getLast?_ne {xs : List Byte} (h : xs.getLast? ≠ some 0x0D#8) : lineBody xs = xs := by
  rw [lineBody, if_neg h]

theorem lineBody_append_of_ne {b : Byte} (hb : b ≠ 0x0D#8) (xs : List Byte) : lineBody (xs ++ [b]) = xs ++ [b] :=
  lineBody_of_getLast?_ne (by simpa using hb)

/-- Every line is its body, or its body with one CR behind it (R52). -/
theorem eq_lineBody_or (xs : List Byte) :
    (xs = lineBody xs ∧ xs.getLast? ≠ some 0x0D#8) ∨ xs = lineBody xs ++ [0x0D#8] := by
  by_cases h : xs.getLast? = some 0x0D#8
  · obtain ⟨ys, rfl⟩ := List.getLast?_eq_some_iff.mp h
    exact .inr (by rw [lineBody_append_cr])
  · exact .inl ⟨(lineBody_of_getLast?_ne h).symm, h⟩

theorem bodyValue_append_singleton (xs : List Byte) (b : Byte) :
    bodyValue (xs ++ [b]) = bodyValue xs * 16 + ((hexval b).getD 0#4).toNat := by
  induction xs with
  | nil => simp [bodyValue]
  | cons x xs ih =>
    simp only [List.cons_append, bodyValue, ih, List.length_append, List.length_singleton, pow_succ]
    ring

/-- The hex digits among the bytes of a line. -/
def hexDigits (xs : List Byte) : List Byte := xs.filter fun b => (hexval b).isSome

theorem hexDigits_append_hex {b : Byte} {d : Digit} (hb : hexval b = some d) (xs : List Byte) :
    hexDigits (xs ++ [b]) = hexDigits xs ++ [b] := by simp [hexDigits, hb]

theorem hexDigits_append_of_none {b : Byte} (hb : hexval b = none) (xs : List Byte) :
    hexDigits (xs ++ [b]) = hexDigits xs := by simp [hexDigits, hb]

/-- The digits of a line whose body holds nothing else are its body. -/
theorem hexDigits_eq_lineBody {xs : List Byte} (h : ∀ b ∈ lineBody xs, hexval b ≠ none) : hexDigits xs = lineBody xs := by
  have hbody : hexDigits (lineBody xs) = lineBody xs :=
    List.filter_eq_self.mpr fun b hb => Option.isSome_iff_ne_none.mpr (h b hb)
  obtain ⟨hx, -⟩ | hx := eq_lineBody_or xs
  · rwa [← hx] at hbody ⊢
  · rw [hx, hexDigits_append_of_none (by decide), lineBody_append_cr, hbody]

/-! ### The accumulator -/

theorem toNat_shiftIn (acc : Word) (d : Digit) : (acc.extractLsb' 0 12 ++ d).toNat = acc.toNat % 2 ^ 12 * 16 + d.toNat := by
  rw [BitVec.toNat_append, ← Nat.shiftLeft_add_eq_or_of_lt d.isLt, BitVec.extractLsb'_toNat, Nat.shiftRight_zero,
    Nat.shiftLeft_eq]

theorem topDigit_ne_zero_iff (acc : Word) : (acc.extractLsb' 12 4 != 0#4) = true ↔ 2 ^ 12 ≤ acc.toNat := by
  have hacc := acc.isLt
  rw [bne_iff_ne, Ne, ← BitVec.toNat_inj, BitVec.extractLsb'_toNat, Nat.shiftRight_eq_div_pow, BitVec.toNat_ofNat]
  omega

/-! ### The line state as a fold -/

/-- The line state after a byte other than LF (R74, R75, R76). -/
def Line.byte (l : Line) (b : Byte) : Line :=
  match hexval b with
  | some d => l.hex d
  | none => if b = 0x0D#8 then l.cr else l.other

/-- Where a byte step is enabled, a byte other than LF updates the line state and enters the line. -/
theorem State.after_decodeByte {s : State} {b : Byte} (hb : b ≠ 0x0A#8) (he : s.byteEnabled = true) :
    s.after (decodeByte b) = s.inLineWith (s.line.byte b) := by
  obtain ⟨d, hv, hd⟩ | ⟨rfl, h⟩ | ⟨rfl, -⟩ | ⟨hv, hcr, -, h⟩ := decodeByte_cases b
  · have hexec : exec (decodeByte b) s = .next (s.inLineWith (s.line.hex d)) := (exec_hex hd s).trans (whenEnabled_of he _ _)
    rw [exec_eq] at hexec
    rw [Line.byte, hv]
    exact Host.Outcome.next.inj hexec
  · rw [h]
    exact if_pos he
  · exact absurd rfl hb
  · rw [h, Line.byte, hv]
    dsimp only
    rw [if_neg hcr]
    exact if_pos he

/-- The line state `l` holds what the bytes `xs` of a line are judged by: a CR last, a body that is not all hex digits, and
whether the line has digits and what they spell (R74 to R79). -/
structure Line.Judges (l : Line) (xs : List Byte) : Prop where
  crp : l.crp = true ↔ xs.getLast? = some 0x0D#8
  bad : l.bad = true ↔ ∃ b ∈ lineBody xs, hexval b = none
  nz : l.nz = true ↔ hexDigits xs ≠ []
  acc : l.acc.toNat = bodyValue (hexDigits xs) % 2 ^ 16
  ovf : l.ovf = true ↔ 0xFFFF < bodyValue (hexDigits xs)

section
variable {l : Line} {xs : List Byte} {b : Byte}

theorem Line.judges_clear : Line.clear.Judges [] where
  crp := by simp [Line.clear]
  bad := by simp [Line.clear, lineBody]
  nz := by simp [Line.clear, hexDigits]
  acc := by simp [Line.clear, hexDigits, bodyValue]
  ovf := by simp [Line.clear, hexDigits, bodyValue]

/-- A byte after a CR shows that the CR was no part of the terminator (R74, R75). -/
theorem Line.Judges.badAfterCr (h : l.Judges xs) : l.badAfterCr = true ↔ ∃ b ∈ xs, hexval b = none := by
  rw [Line.badAfterCr, Bool.or_eq_true, h.bad, h.crp]
  obtain ⟨hx, hlast⟩ | hx := eq_lineBody_or xs
  · rw [← hx]
    simp [hlast]
  · rw [hx]
    simp [show hexval 0x0D#8 = none by decide]

theorem Line.Judges.hex {d : Digit} (h : l.Judges xs) (hb : hexval b = some d) : (l.hex d).Judges (xs ++ [b]) := by
  have hcr : b ≠ 0x0D#8 := by
    rintro rfl
    cases hb
  have hval : bodyValue (hexDigits (xs ++ [b])) = bodyValue (hexDigits xs) * 16 + d.toNat := by
    rw [hexDigits_append_hex hb, bodyValue_append_singleton, hb, Option.getD_some]
  have hd := d.isLt
  constructor
  case crp => simp [Line.hex, hcr]
  case bad =>
    rw [lineBody_append_of_ne hcr]
    simp [Line.hex, h.badAfterCr, hb]
  case nz => simp [Line.hex, hexDigits_append_hex hb]
  case acc =>
    rw [hval, Line.hex, toNat_shiftIn, h.acc]
    omega
  case ovf =>
    rw [hval, Line.hex, Line.ovfAfterHex, Bool.or_eq_true, topDigit_ne_zero_iff, h.ovf, h.acc]
    omega

theorem Line.Judges.cr (h : l.Judges xs) : l.cr.Judges (xs ++ [0x0D#8]) := by
  have hdigits := hexDigits_append_of_none (b := 0x0D#8) (by decide) xs
  constructor
  case crp => simp [Line.cr]
  case bad =>
    rw [lineBody_append_cr]
    exact h.badAfterCr
  case nz => rw [hdigits]; exact h.nz
  case acc => rw [hdigits]; exact h.acc
  case ovf => rw [hdigits]; exact h.ovf

theorem Line.Judges.other (h : l.Judges xs) (hb : hexval b = none) (hcr : b ≠ 0x0D#8) : l.other.Judges (xs ++ [b]) := by
  have hdigits := hexDigits_append_of_none hb xs
  constructor
  case crp => simp [Line.other, hcr]
  case bad =>
    rw [lineBody_append_of_ne hcr]
    simp [Line.other, hb]
  case nz => rw [hdigits]; exact h.nz
  case acc => rw [hdigits]; exact h.acc
  case ovf => rw [hdigits]; exact h.ovf

theorem Line.Judges.byte (h : l.Judges xs) (b : Byte) : (l.byte b).Judges (xs ++ [b]) := by
  unfold Line.byte
  split
  · next d hb => exact h.hex hb
  · next hb =>
    split
    · next hcr =>
      subst hcr
      exact h.cr
    · next hcr => exact h.other hb hcr

end

/-- The bytes of a line, from a clear line state, leave the state that judges them. -/
theorem Line.judges_foldl (xs : List Byte) : (xs.foldl Line.byte Line.clear).Judges xs := by
  induction xs using List.reverseRecOn with
  | nil => exact Line.judges_clear
  | append_singleton xs b ih =>
    rw [List.foldl_append]
    exact ih.byte b

/-- The judgement at the LF is that of the whole-line rule, with its word or its cause (R53, R78, R104). -/
theorem Line.Judges.verdict {l : Line} {xs : List Byte} (h : l.Judges xs) : l.verdict = decodeLine xs := by
  have hany : (lineBody xs).any (fun b => (hexval b).isNone) = true ↔ l.bad = true := by simp [h.bad]
  unfold Line.verdict decodeLine
  cases hbad : l.bad with
  | true =>
    obtain ⟨b, hb, -⟩ := h.bad.mp hbad
    rw [if_pos rfl, if_neg (List.ne_nil_of_mem hb), if_pos (hany.mpr hbad)]
  | false =>
    have hhex : ∀ b ∈ lineBody xs, hexval b ≠ none := fun b hb hv => by
      have hbad' := h.bad.mpr ⟨b, hb, hv⟩
      rw [hbad] at hbad'
      cases hbad'
    obtain ⟨-, -, hnz, hacc, hovf⟩ := h
    rw [hexDigits_eq_lineBody hhex] at hnz hacc hovf
    rw [hbad] at hany
    have hword : l.acc = BitVec.ofNat 16 (bodyValue (lineBody xs)) :=
      BitVec.eq_of_toNat_eq (by rw [hacc, BitVec.toNat_ofNat])
    simp only [hany, Bool.false_eq_true, if_false, ← hovf, ← hword, Bool.not_eq_true', ← Bool.not_eq_true, hnz, not_not]

/-! ### One line (R73, R87) -/

section
variable {s : State} {line rest : List Byte}

theorem State.atLineStart.byteEnabled (h : s.atLineStart) : s.byteEnabled = true :=
  s.byteEnabled_iff.mpr (.inl ⟨h.1, h.2.1⟩)

theorem State.atLineStart.endLine (h : s.atLineStart) : s.endLine = s := by
  obtain ⟨hrs, -, hline⟩ := h
  rw [State.endLine, ← hline, ← hrs]

theorem State.atLineStart.lineEffect (h : s.atLineStart) : (lineEffect line s).atLineStart := by
  unfold Machine.lineEffect
  split
  · exact h
  · exact h

theorem State.moves_lineEffect (line : List Byte) (s : State) : (lineEffect line s).moves = s.moves := by
  unfold Machine.lineEffect
  split <;> rfl

/-- The effect of a line does not depend on the bytes offered behind it. -/
theorem lineEffect_withStream (line : List Byte) (bs : List Byte) (s : State) :
    lineEffect line { s with stream := bs } = { lineEffect line s with stream := bs } := by
  unfold lineEffect
  split <;> rfl

theorem lineEffects_withStream (lines : List (List Byte)) (bs : List Byte) (s : State) :
    lines.foldl (fun t line => lineEffect line t) { s with stream := bs } =
      { lines.foldl (fun t line => lineEffect line t) s with stream := bs } :=
  List.foldl_hom (fun t : State => { t with stream := bs }) fun t line => lineEffect_withStream line bs t

/-- The bytes of a line before its LF, taken in a row, leave the engine in the line with the line state they fold to. -/
theorem stepTimes_lineBytes (hlf : 0x0A#8 ∉ line) (hm : s.moves = []) (he : s.byteEnabled = true)
    (hs : s.stream = line ++ rest) :
    ∃ rs, ({ s with rs := rs } : State).byteEnabled = true ∧
      stepTimes line.length s = .next { s with rs := rs, line := line.foldl Line.byte s.line, stream := rest } := by
  induction line generalizing s with
  | nil => exact ⟨s.rs, he, by rw [List.nil_append] at hs; rw [← hs]; rfl⟩
  | cons b line ih =>
    obtain ⟨hb, hlf⟩ := not_or.mp (mt List.mem_cons.mpr hlf)
    have hstep : s.afterStep = ({ s with stream := line ++ rest } : State).inLineWith (s.line.byte b) :=
      (State.afterStep_byte hm he hs).trans (State.after_decodeByte (Ne.symm hb) he)
    obtain ⟨rs, hrs, hrun⟩ := ih (s := s.afterStep) hlf (by rw [hstep]; exact hm)
      (by rw [hstep]; exact (State.byteEnabled_iff _).mpr (.inr rfl)) (by rw [hstep]; rfl)
    rw [hstep] at hrs hrun
    exact ⟨rs, hrs, by rw [List.length_cons, stepTimes, step_eq, hstep]; exact hrun⟩

/-- The LF of a line whose bytes have been taken gives the line its effect and is at a line start again. -/
theorem State.after_lf_of_judges {rs : RunState} {l : Line} (h : s.atLineStart) (hl : l.Judges line)
    (he : ({ s with rs := rs } : State).byteEnabled = true) :
    ({ s with rs := rs, line := l } : State).after .lf = lineEffect line s := by
  have hlf : ({ s with rs := rs, line := l } : State).after .lf = (lineEffect line s).endLine := by
    refine (if_pos he).trans ?_
    rw [lineEffect, ← hl.verdict]
    dsimp only
    cases l.verdict <;> rfl
  rw [hlf, h.lineEffect.endLine]

/-- A line and its LF, offered next, are consumed and have the effect of the whole line. -/
theorem stepTimes_line (hlf : 0x0A#8 ∉ line) (h : s.atLineStart) (hm : s.moves = [])
    (hs : s.stream = line ++ 0x0A#8 :: rest) :
    stepTimes (line.length + 1) s = .next { lineEffect line s with stream := rest } := by
  obtain ⟨rs, hrs, hrun⟩ := stepTimes_lineBytes hlf hm h.byteEnabled hs
  have hl : (line.foldl Line.byte s.line).Judges line := by
    rw [h.2.2]
    exact Line.judges_foldl line
  have hstep : ({ s with rs := rs, line := line.foldl Line.byte s.line, stream := 0x0A#8 :: rest } : State).afterStep =
      lineEffect line { s with stream := rest } := by
    refine (State.afterStep_byte ?_ ?_ rfl).trans (State.after_lf_of_judges (s := { s with stream := rest }) h hl hrs)
    · exact hm
    · exact hrs
  rw [stepTimes_add hrun, stepTimes, step_eq, hstep, lineEffect_withStream]
  rfl

end

/-- Settles O27: by induction on the lines, each from the line start the one before it ends at. -/
theorem linesInOrder : Obligations.LinesInOrder := by
  intro lines rest s hlf h hm hs
  induction lines generalizing s with
  | nil => exact congrArg _ (by rw [show rest = s.stream from hs.symm]; rfl)
  | cons line lines ih =>
    obtain ⟨hline, hlines⟩ := List.forall_mem_cons.mp hlf
    have hwire : wireBytes (line :: lines) = line ++ 0x0A#8 :: wireBytes lines := by simp [wireBytes]
    rw [hwire, List.append_assoc, List.cons_append] at hs
    have hlen : (wireBytes (line :: lines)).length = line.length + 1 + (wireBytes lines).length := by
      rw [hwire, List.length_append, List.length_cons]
      omega
    have hrest := ih { lineEffect line s with stream := wireBytes lines ++ rest } hlines h.lineEffect
      ((s.moves_lineEffect line).trans hm) rfl
    rw [hlen, stepTimes_add (stepTimes_line hline h hm hs), hrest, lineEffects_withStream]
    rfl

end Sys2Proof.Machine
end

section
/-!
PROOFS. Encoding: the frame word and its canonical form (R58 to R64), the byte classes (R50, R51), the instructions of all
rows (R65, R67, R68), whole lines (R52 to R55, R69), and the input a step takes (R91, R99).
-/

namespace Sys2Proof

/-! ### The fields of a word (R58, R59, R60) -/

theorem frameBank_eq_a_iff (w : Word) : frameBank w = .a ↔ w.getLsbD 12 = true := by
  unfold frameBank
  cases w.getLsbD 12 <;> decide

theorem frameBank_eq_b_iff (w : Word) : frameBank w = .b ↔ w.getLsbD 12 = false := by
  unfold frameBank
  cases w.getLsbD 12 <;> decide

theorem getLsbD_frameAddr (w : Word) {j : Nat} (hj : j < 4) : (frameAddr w).getLsbD j = w.getLsbD (11 - j) := by
  rw [frameAddr, getLsbD_rev4 _ j hj, BitVec.getLsbD_extractLsb', show 8 + (3 - j) = 11 - j by omega]
  simp [show 3 - j < 4 by omega]

theorem getLsbD_frameVal (w : Word) {j : Nat} (hj : j < 8) : (frameVal w).getLsbD j = w.getLsbD (7 - j) := by
  rw [frameVal, getLsbD_rev8 _ j hj, BitVec.getLsbD_extractLsb', Nat.zero_add]
  simp [show 7 - j < 8 by omega]

theorem decodeFrame_of_bank_a {w : Word} (h : frameBank w = .a) : decodeFrame w = .wra (frameAddr w) (frameVal w) := by
  rw [decodeFrame, h]

theorem decodeFrame_of_bank_b {w : Word} (h : frameBank w = .b) : decodeFrame w = .wrb (frameAddr w) (frameVal w) := by
  rw [decodeFrame, h]

/-- Settles O2: the fields bit by bit, and the row by the bank. -/
theorem frameFields : Obligations.FrameFields := fun w =>
  ⟨frameBank_eq_a_iff w, fun _ => getLsbD_frameAddr w, fun _ => getLsbD_frameVal w,
    fun h => decodeFrame_of_bank_a ((frameBank_eq_a_iff w).mpr h),
    fun h => decodeFrame_of_bank_b ((frameBank_eq_b_iff w).mpr h)⟩

/-- Settles O5: the address depends on W[11:8] alone, and the table is `rev_4` on its 16 values. -/
theorem addressTable : Obligations.AddressTable := by
  intro w
  have table : ∀ v : BitVec 4, (rev4 v).toNat =
      [0, 8, 4, 12, 2, 10, 6, 14, 1, 9, 5, 13, 3, 11, 7, 15].getD v.toNat 0 := by decide
  exact table (w.extractLsb' 8 4)

/-! ### The canonical word (R61, R64) -/

theorem extractLsb'_addr_eq_rev4 (w : Word) : w.extractLsb' 8 4 = rev4 (frameAddr w) := by rw [frameAddr, rev4_rev4]

theorem extractLsb'_val_eq_rev8 (w : Word) : w.extractLsb' 0 8 = rev8 (frameVal w) := by rw [frameVal, rev8_rev8]

theorem bankBit_frameBank (w : Word) : bankBit (frameBank w) = BitVec.ofBool (w.getLsbD 12) := by
  unfold frameBank
  cases w.getLsbD 12 <;> rfl

theorem highBits_encodeFrame (bank : Bank) (a : Addr) (v : Byte) : (encodeFrame bank a v).extractLsb' 13 3 = 0#3 := by
  apply BitVec.eq_of_getLsbD_eq
  intro j hj
  have h8 : ¬ 13 + j < 8 := by omega
  have h12 : ¬ 13 + j < 12 := by omega
  have h13 : ¬ 13 + j = 12 := by omega
  simp [getLsbD_encodeFrame, h8, h12, h13]

/-- Encoding the fields of a word gives the word with bits 15:13 zero. -/
theorem encodeFrame_fields (w : Word) :
    encodeFrame (frameBank w) (frameAddr w) (frameVal w) = w &&& 0x1FFF#16 := by
  apply BitVec.eq_of_getLsbD_eq
  intro j hj
  rw [getLsbD_encodeFrame, ← extractLsb'_addr_eq_rev4, ← extractLsb'_val_eq_rev8, bankBit_frameBank]
  interval_cases j <;> simp

/-- Settles O4: the fields of the canonical word, and the word of a word's fields. -/
theorem frameRoundTrip : Obligations.FrameRoundTrip := by
  refine ⟨fun bank a v => ⟨highBits_encodeFrame bank a v, ?_, ?_, ?_, frameBank_encodeFrame bank a v,
    frameAddr_encodeFrame bank a v, frameVal_encodeFrame bank a v⟩, encodeFrame_fields⟩
  · rw [← frameBank_eq_a_iff, frameBank_encodeFrame]
  · rw [extractLsb'_addr_eq_rev4, frameAddr_encodeFrame]
  · rw [extractLsb'_val_eq_rev8, frameVal_encodeFrame]

theorem decodeFrame_eq_iff_fields (w w' : Word) :
    decodeFrame w = decodeFrame w' ↔
      frameBank w = frameBank w' ∧ frameAddr w = frameAddr w' ∧ frameVal w = frameVal w' := by
  unfold decodeFrame
  cases frameBank w <;> cases frameBank w' <;> simp

/-- The three fields are the word without bits 15:13, and no less. -/
theorem fields_eq_iff_and (w w' : Word) :
    (frameBank w = frameBank w' ∧ frameAddr w = frameAddr w' ∧ frameVal w = frameVal w') ↔
      w &&& 0x1FFF#16 = w' &&& 0x1FFF#16 := by
  rw [← encodeFrame_fields w, ← encodeFrame_fields w']
  constructor
  · rintro ⟨hbank, haddr, hval⟩
    rw [hbank, haddr, hval]
  · intro h
    exact ⟨by simpa using congrArg frameBank h, by simpa using congrArg frameAddr h, by simpa using congrArg frameVal h⟩

theorem and_eq_iff_extractLsb'_eq (w w' : Word) :
    w &&& 0x1FFF#16 = w' &&& 0x1FFF#16 ↔ w.extractLsb' 0 13 = w'.extractLsb' 0 13 := by
  have hmask (x : Word) : (x &&& 0x1FFF#16).toNat = (x.extractLsb' 0 13).toNat := by
    rw [BitVec.toNat_and, BitVec.extractLsb'_toNat, Nat.shiftRight_zero]
    exact Nat.and_two_pow_sub_one_eq_mod x.toNat 13
  rw [← BitVec.toNat_inj, hmask, hmask, BitVec.toNat_inj]

/-- Settles O3: the instruction is the three fields, and these are the word's bits 12:0. -/
theorem highBitsIgnored : Obligations.HighBitsIgnored := fun w w' =>
  (decodeFrame_eq_iff_fields w w').trans ((fields_eq_iff_and w w').trans (and_eq_iff_extractLsb'_eq w w'))

/-! ### The digits (R50, R51) -/

theorem setWidth_sub_eq_ofNat {b : Byte} {k : Nat} (h : k ≤ b.toNat) :
    (b - BitVec.ofNat 8 k).setWidth 4 = BitVec.ofNat 4 (b.toNat - k) := by
  have hb := b.isLt
  apply BitVec.eq_of_toNat_eq
  rw [BitVec.toNat_setWidth, BitVec.toNat_sub, BitVec.toNat_ofNat, BitVec.toNat_ofNat]
  omega

section
variable {b : Byte}

theorem hexval_of_decimal (h : 0x30 ≤ b.toNat ∧ b.toNat ≤ 0x39) : hexval b = some (BitVec.ofNat 4 (b.toNat - 0x30)) := by
  rw [hexval, if_pos (by bv_omega), setWidth_sub_eq_ofNat h.1]

theorem hexval_of_upper (h : 0x41 ≤ b.toNat ∧ b.toNat ≤ 0x46) : hexval b = some (BitVec.ofNat 4 (b.toNat - 0x37)) := by
  rw [hexval, if_neg (by bv_omega), if_pos (by bv_omega), setWidth_sub_eq_ofNat (by omega)]

theorem hexval_of_lower (h : 0x61 ≤ b.toNat ∧ b.toNat ≤ 0x66) : hexval b = some (BitVec.ofNat 4 (b.toNat - 0x57)) := by
  rw [hexval, if_neg (by bv_omega), if_neg (by bv_omega), if_pos (by bv_omega), setWidth_sub_eq_ofNat (by omega)]

theorem hexval_eq_none (hdec : ¬(0x30 ≤ b.toNat ∧ b.toNat ≤ 0x39)) (hup : ¬(0x41 ≤ b.toNat ∧ b.toNat ≤ 0x46))
    (hlow : ¬(0x61 ≤ b.toNat ∧ b.toNat ≤ 0x66)) : hexval b = none := by
  rw [hexval, if_neg (by bv_omega), if_neg (by bv_omega), if_neg (by bv_omega)]

end

/-- A byte is a digit exactly on the three ranges (R50). -/
theorem isSome_hexval_iff (b : Byte) :
    (hexval b).isSome = true ↔ (0x30 ≤ b.toNat ∧ b.toNat ≤ 0x39) ∨ (0x41 ≤ b.toNat ∧ b.toNat ≤ 0x46) ∨
      (0x61 ≤ b.toNat ∧ b.toNat ≤ 0x66) := by
  constructor
  · intro h
    by_contra hout
    obtain ⟨hdec, hup, hlow⟩ : _ ∧ _ ∧ _ := by simpa only [not_or] using hout
    rw [hexval_eq_none hdec hup hlow] at h
    cases h
  · rintro (h | h | h)
    · rw [hexval_of_decimal h]; rfl
    · rw [hexval_of_upper h]; rfl
    · rw [hexval_of_lower h]; rfl

/-- Settles O8: range by range; the digit's value is below 16, so the four bits hold it. -/
theorem hexDigits : Obligations.HexDigits := by
  refine fun b => ⟨fun h => ⟨_, hexval_of_decimal h, ?_⟩, fun h => ⟨_, hexval_of_upper h, ?_⟩,
    fun h => ⟨_, hexval_of_lower h, ?_⟩, hexval_eq_none⟩
  all_goals
    rw [BitVec.toNat_ofNat]
    omega

/-! ### The byte classes (R50) -/

theorem byteClass_eq_hex_iff (b : Byte) : byteClass b = .hex ↔ (hexval b).isSome = true := by
  unfold byteClass
  split_ifs with h <;> simp [h]

theorem byteClass_eq_cr_iff (b : Byte) : byteClass b = .cr ↔ b = 0x0D#8 := by
  constructor
  · unfold byteClass
    split_ifs with hhex hcr hlf
    exacts [nofun, fun _ => hcr, nofun, nofun]
  · rintro rfl
    rfl

theorem byteClass_eq_lf_iff (b : Byte) : byteClass b = .lf ↔ b = 0x0A#8 := by
  constructor
  · unfold byteClass
    split_ifs with hhex hcr hlf
    exacts [nofun, nofun, fun _ => hlf, nofun]
  · rintro rfl
    rfl

theorem byteClass_eq_other_iff (b : Byte) :
    byteClass b = .other ↔ byteClass b ≠ .hex ∧ byteClass b ≠ .cr ∧ byteClass b ≠ .lf := by
  cases byteClass b <;> decide

/-- Settles O9: the classes by the digit ranges, CR and LF; the counts by going through the 256 bytes. -/
theorem byteClasses : Obligations.ByteClasses := by
  refine ⟨fun b => ⟨?_, byteClass_eq_cr_iff b, byteClass_eq_lf_iff b, ?_, hexval_of_decimal, fun h => ?_, fun h => ?_, ?_⟩,
    by decide +kernel⟩
  · rw [byteClass_eq_hex_iff, isSome_hexval_iff]
  · simp only [byteClass_eq_other_iff, Ne, byteClass_eq_hex_iff, byteClass_eq_cr_iff, byteClass_eq_lf_iff,
      isSome_hexval_iff, not_or, and_assoc]
  · rw [hexval_of_upper h, show b.toNat - 0x37 = b.toNat - 0x41 + 10 by omega]
  · rw [hexval_of_lower h, show b.toNat - 0x57 = b.toNat - 0x61 + 10 by omega]
  · rw [Ne, byteClass_eq_hex_iff, Option.not_isSome_iff_eq_none]
    exact id

/-! ### Decode of encode (R64, R65, R67, R68) -/

/-- The check of well-formedness and the classes name the same bytes OTHER (R50, R67). -/
theorem isOtherByte_iff (b : Byte) : isOtherByte b = true ↔ byteClass b = .other := by
  simp only [byteClass_eq_other_iff, Ne, byteClass_eq_hex_iff, byteClass_eq_cr_iff, byteClass_eq_lf_iff, isSome_hexval_iff]
  simp [isOtherByte, BitVec.le_def, and_assoc, imp_iff_not_or]

theorem decodeByte_of_other {b : Byte} (h : byteClass b = .other) : decodeByte b = .other b := by
  obtain ⟨hhex, hcr, hlf⟩ := (byteClass_eq_other_iff b).mp h
  obtain ⟨d, hd, -⟩ | ⟨hb, -⟩ | ⟨hb, -⟩ | ⟨-, -, -, hdec⟩ := Machine.decodeByte_cases b
  · exact absurd ((byteClass_eq_hex_iff b).mpr (by rw [hd]; rfl)) hhex
  · exact absurd ((byteClass_eq_cr_iff b).mpr hb) hcr
  · exact absurd ((byteClass_eq_lf_iff b).mpr hb) hlf
  · exact hdec

theorem decodeFrame_encodeFrame_a (a : Addr) (v : Byte) : decodeFrame (encodeFrame .a a v) = .wra a v := by
  rw [decodeFrame_of_bank_a (frameBank_encodeFrame .a a v), frameAddr_encodeFrame, frameVal_encodeFrame]

theorem decodeFrame_encodeFrame_b (a : Addr) (v : Byte) : decodeFrame (encodeFrame .b a v) = .wrb a v := by
  rw [decodeFrame_of_bank_b (frameBank_encodeFrame .b a v), frameAddr_encodeFrame, frameVal_encodeFrame]

/-- Settles O6, row by row: a frame's fields come back from its canonical word, a HEX row's open bits from its byte, and
OTHER's byte matches no other row. -/
theorem decodeEncode : Obligations.DecodeEncode := by
  intro numReaders i hwf
  cases i with
  | wra a v => exact decodeFrame_encodeFrame_a a v
  | wrb a v => exact decodeFrame_encodeFrame_b a v
  | hex07 d | hex89 d | hexUpBC d | hexUpDE d | hexLoBC d | hexLoDE d =>
    clear hwf
    revert d
    decide
  | other b => exact decodeByte_of_other ((isOtherByte_iff b).mp hwf)
  | hexUpA | hexUpF | hexLoA | hexLoF | cr | lf => rfl
  | get | snapshot | status | start | cancel | cancelTake | transportFault | reset => rfl

/-- Settles O7: the decoder run on the 16 words. -/
theorem decodeVectors : Obligations.DecodeVectors := by
  unfold Obligations.DecodeVectors
  decide

/-! ### Whole lines (R53, R54, R55) -/

open Machine (lineBody_append_cr lineBody_of_getLast?_ne)

/-- When a line is valid, and its word, in terms of its body. -/
theorem decodeLine_eq_frame_iff (line : List Byte) (w : Word) :
    decodeLine line = .frame w ↔
      lineBody line ≠ [] ∧ (∀ b ∈ lineBody line, (hexval b).isSome = true) ∧ bodyValue (lineBody line) = w.toNat := by
  have hw := w.isLt
  have hany : (lineBody line).any (fun b => (hexval b).isNone) = true ↔ ¬∀ b ∈ lineBody line, (hexval b).isSome = true := by
    simp
  unfold decodeLine
  split_ifs with hempty hbad hovf
  · simp [hempty]
  · simp [hany.mp hbad]
  · have : bodyValue (lineBody line) ≠ w.toNat := by omega
    simp [this]
  · have hhex := not_not.mp (mt hany.mpr hbad)
    rw [Verdict.frame.injEq, ← BitVec.toNat_inj, BitVec.toNat_ofNat, Nat.mod_eq_of_lt (by omega)]
    exact ⟨fun h => ⟨hempty, hhex, h⟩, fun h => h.2.2⟩

/-- Settles O12: the two forms of a line have the body given. -/
theorem lineValidity : Obligations.LineValidity := by
  intro line body hline w
  have hbody : lineBody line = body := by
    obtain rfl | ⟨rfl, hlast⟩ := hline
    · exact lineBody_append_cr body
    · exact lineBody_of_getLast?_ne hlast
  rw [decodeLine_eq_frame_iff, hbody]

/-- Bytes put in front of a line that is not empty are put in front of its body. -/
theorem lineBody_append {line : List Byte} (h : line ≠ []) (xs : List Byte) :
    lineBody (xs ++ line) = xs ++ lineBody line := by
  unfold lineBody
  rw [List.getLast?_append_of_ne_nil xs h, List.dropLast_append_of_ne_nil h]
  split <;> rfl

theorem ne_nil_of_lineBody_ne_nil {line : List Byte} (h : lineBody line ≠ []) : line ≠ [] := by
  rintro rfl
  exact h rfl

theorem bodyValue_zero_cons (body : List Byte) : bodyValue (0x30#8 :: body) = bodyValue body := by
  simp [bodyValue, show hexval 0x30#8 = some 0#4 from rfl]

/-- One leading zero changes no verdict (R55). -/
theorem decodeLine_zero_cons {line : List Byte} (h : lineBody line ≠ []) :
    decodeLine (0x30#8 :: line) = decodeLine line := by
  have hbody : lineBody (0x30#8 :: line) = 0x30#8 :: lineBody line := lineBody_append (ne_nil_of_lineBody_ne_nil h) [0x30#8]
  have hzero : (hexval 0x30#8).isNone = false := rfl
  unfold decodeLine
  rw [hbody, if_neg (List.cons_ne_nil _ _), if_neg h, List.any_cons, hzero, Bool.false_or,
    bodyValue_zero_cons]

/-- Settles O11: by induction on the number of zeros. -/
theorem leadingZeros : Obligations.LeadingZeros := by
  intro n line h
  induction n with
  | zero => rfl
  | succ n ih =>
    have hbody : lineBody (List.replicate n 0x30#8 ++ line) ≠ [] := by
      rw [lineBody_append (ne_nil_of_lineBody_ne_nil h)]
      exact List.append_ne_nil_of_right_ne_nil _ h
    rw [List.replicate_succ, List.cons_append, decodeLine_zero_cons hbody, ih]

/-! ### The canonical line (R69) -/

theorem hexval_digitChar (d : Digit) : hexval (digitChar d) = some d := by
  revert d
  decide

theorem digitChar_upperCase (d : Digit) :
    (0x30 ≤ (digitChar d).toNat ∧ (digitChar d).toNat ≤ 0x39) ∨
      (0x41 ≤ (digitChar d).toNat ∧ (digitChar d).toNat ≤ 0x46) := by
  revert d
  decide

theorem forall_mem_wordDigits {p : Byte → Prop} (h : ∀ d, p (digitChar d)) (w : Word) : ∀ b ∈ wordDigits w, p b := by
  simp [wordDigits, h]

theorem bodyValue_wordDigits (w : Word) : bodyValue (wordDigits w) = w.toNat := by
  have hw := w.isLt
  simp only [wordDigits, bodyValue, hexval_digitChar, Option.getD_some, BitVec.extractLsb'_toNat,
    Nat.shiftRight_eq_div_pow, List.length_cons, List.length_nil]
  omega

/-- Settles O10: the digits of the word spell it, with the CR stripped. -/
theorem Lines.canonicalLine : Obligations.CanonicalLine := by
  refine fun w => ⟨wordDigits w, rfl, rfl, forall_mem_wordDigits digitChar_upperCase w, ?_⟩
  rw [decodeLine_eq_frame_iff, lineBody_append_cr]
  exact ⟨List.cons_ne_nil _ _, forall_mem_wordDigits (fun d => by rw [hexval_digitChar]; rfl) w, bodyValue_wordDigits w⟩

namespace Machine

/-! ### The input a step takes (R91, R99) -/

theorem step_of_fetch_run {s t : State} {i : Instr} (h : s.fetch = .run i t) : step s = exec i t := by rw [step, h]

theorem step_of_fetch_hold {s t : State} (h : s.fetch = .hold t) : step s = .next t := by rw [step, h]

section
variable {s : State} {ms : List Move}

theorem State.fetch_port {p : PortOp} (h : s.moves = .port p :: ms) :
    s.fetch = .run (decodePort p) { s with moves := ms } := by rw [State.fetch, h]

theorem State.fetch_event {e : EventIn} (h : s.moves = .event e :: ms) :
    s.fetch = .run (decodeEvent e) { s with moves := ms } := by rw [State.fetch, h]

theorem State.fetch_offer {b : Byte} (h : s.moves = .offer b :: ms) :
    s.fetch = .hold { s with moves := ms, stream := s.stream ++ [b] } := by rw [State.fetch, h]

end

/-- Settles O46: a port or event move fetches the instruction it decodes to, an offered byte fetches none. -/
theorem stepRunsInput : Obligations.StepRunsInput := fun _ _ =>
  ⟨fun _ h => step_of_fetch_run (State.fetch_port h), fun _ h => step_of_fetch_run (State.fetch_event h),
    fun _ h => step_of_fetch_hold (State.fetch_offer h)⟩

end Machine
end Sys2Proof
end

section
/-!
PROOFS. The line parser (R71 to R81): what each byte instruction does where it is enabled and where it is not, what it leaves
alone, and what its bytes add up to over a line. Then the engine's turn: what enables and disables its steps (R97, R124,
R128), and what RESET leaves to the agents (R118).
-/

namespace Sys2Proof.Machine

/-! ### One byte other than LF (R74, R75, R76) -/

theorem digit07_eq_setWidth (d : BitVec 3) : digit07 d = d.setWidth 4 := by
  revert d
  decide

/-- An enabled HEX row of digit `d` (R74), with the overflow test as the rule writes it. -/
theorem exec_hex_of_enabled {s : State} {i : Instr} {d : Digit} (hi : hexDigit i = some d) (he : s.byteEnabled = true) :
    exec i s = .next (s.inLineWith
      { acc := s.line.acc.extractLsb' 0 12 ++ d, nz := true
        ovf := s.line.ovf || decide (s.line.acc.extractLsb' 12 4 ≠ 0#4)
        bad := s.line.bad || s.line.crp, crp := false }) := by
  rw [exec_hex hi, hexByte, whenEnabled_of he, Line.hex, Line.ovfAfterHex, Line.badAfterCr, bne,
    beq_eq_decide, decide_not]

/-- Settles O13: the ten rows have one meaning over their digit, and a HEX byte decodes to a row of its digit. -/
theorem LineParser.hexByte : Obligations.HexByte := by
  intro s hs after
  have row {i : Instr} {d : Digit} (hi : hexDigit i = some d) : exec i s = .next (after d) :=
    exec_hex_of_enabled hi (s.byteEnabled_iff.mpr hs)
  exact ⟨fun d => row (congrArg some (digit07_eq_setWidth d)), fun _ => row rfl, row rfl, fun _ => row rfl, fun _ => row rfl,
    row rfl, row rfl, fun _ => row rfl, fun _ => row rfl, row rfl, fun b _ hb => row ((hexDigit_decodeByte b).trans hb)⟩

/-- Settles O14: CR's own line update, run where it is enabled. -/
theorem crByte : Obligations.CrByte :=
  ⟨rfl, fun s hs => whenEnabled_of (s.byteEnabled_iff.mpr hs) _ _⟩

/-- Settles O15: such a byte is of class OTHER, and OTHER's line update does not use its value. -/
theorem otherByte : Obligations.OtherByte := by
  refine ⟨fun b hhex hcr hlf => decodeByte_of_other ?_, fun _ s hs => whenEnabled_of (s.byteEnabled_iff.mpr hs) _ _⟩
  simp [byteClass, hhex, hcr, hlf]

/-! ### Bytes that are not enabled (R71) -/

theorem State.after_decodeByte_of_not_enabled {s : State} (he : s.byteEnabled = false) (b : Byte) :
    s.after (decodeByte b) = s := by
  have hskip : ¬s.byteEnabled = true := by simp [he]
  obtain ⟨d, -, hd⟩ | ⟨-, h⟩ | ⟨-, h⟩ | ⟨-, -, -, h⟩ := decodeByte_cases b
  · have hexec : exec (decodeByte b) s = .next s := (exec_hex hd s).trans (whenEnabled_of_not he _ _)
    rw [exec_eq] at hexec
    exact Host.Outcome.next.inj hexec
  all_goals
    rw [h]
    exact if_neg hskip

/-- Settles O17: a byte that is not enabled leaves the state, whatever row it decodes to. -/
theorem byteNotEnabled : Obligations.ByteNotEnabled := fun b s hs =>
  (exec_eq _ s).trans (congrArg _ (State.after_decodeByte_of_not_enabled (s.byteEnabled_eq_false_iff.mpr hs) b))

/-- A byte other than LF changes the run state and the line state only. -/
theorem State.after_decodeByte_frame {b : Byte} (hb : b ≠ 0x0A#8) (s : State) :
    s.after (decodeByte b) =
      { s with rs := (s.after (decodeByte b)).rs, line := (s.after (decodeByte b)).line } := by
  cases he : s.byteEnabled with
  | true =>
    rw [State.after_decodeByte hb he]
    rfl
  | false => rw [State.after_decodeByte_of_not_enabled he]

/-- Settles O18: beside the two fields named nothing changes, so neither does what is computed from the writes. -/
theorem parserBytesFrame : Obligations.ParserBytesFrame := by
  intro b s t hb e
  rw [exec_eq] at e
  cases e
  have hw : (s.after (decodeByte b)).writes = s.writes :=
    State.writes_after ((mayWrite_decodeByte b).trans (decide_eq_false hb)) s
  exact ⟨State.after_decodeByte_frame hb s, State.rf_congr hw, State.log_congr hw⟩

/-! ### LF (R77) -/

/-- LF on a valid line executes the frame instruction of the accumulated word and ends the line. -/
theorem State.after_lf_of_valid {s : State} (he : s.byteEnabled = true)
    (hvalid : s.line.nz = true ∧ s.line.ovf = false ∧ s.line.bad = false) :
    s.after .lf = (s.after (decodeFrame s.line.acc)).endLine := by
  rw [State.after_decodeFrame]
  simp only [State.after, if_pos he, Line.verdict_eq_frame_iff.mpr ⟨hvalid, rfl⟩]

/-- LF on a malformed line ends the line and does nothing else. -/
theorem State.after_lf_of_malformed {s : State} (he : s.byteEnabled = true)
    (hbad : ¬(s.line.nz = true ∧ s.line.ovf = false ∧ s.line.bad = false)) : s.after .lf = s.endLine := by
  cases hv : s.line.verdict with
  | frame w => exact absurd (Line.verdict_eq_frame_iff.mp hv).1 hbad
  | malformed c => simp only [State.after, if_pos he, hv]

/-- Settles O16: a valid line by its frame instruction, a malformed one by the end of the line. -/
theorem lfByte : Obligations.LfByte := by
  refine ⟨rfl, fun s hs => ?_⟩
  have he : s.byteEnabled = true := s.byteEnabled_iff.mpr hs
  constructor
  · intro hvalid
    refine ⟨_, exec_eq _ s, ?_⟩
    rw [exec_eq, State.after_lf_of_valid he hvalid]
    rfl
  · intro hbad
    rw [exec_eq, State.after_lf_of_malformed he hbad]
    rfl

/-- LF changes the run state, the line state and the register file only. -/
theorem State.after_lf_frame (s : State) :
    s.after .lf =
      { s with rs := (s.after .lf).rs, line := (s.after .lf).line, writes := (s.after .lf).writes } := by
  cases he : s.byteEnabled with
  | true =>
    by_cases hvalid : s.line.nz = true ∧ s.line.ovf = false ∧ s.line.bad = false
    · rw [State.after_lf_of_valid he hvalid, State.after_decodeFrame]
      rfl
    · rw [State.after_lf_of_malformed he hvalid]
      rfl
  | false => rw [show s.after .lf = s from State.after_decodeByte_of_not_enabled he 0x0A#8]

/-- An entry is the last element of its log, so it follows its log (R18). -/
theorem State.rf_eq_of_log_eq {s t : State} {i : Index} (h : t.log i = s.log i) : t.rf i = s.rf i :=
  Option.some.inj (by rw [← State.log_getLast?, ← State.log_getLast?, h])

/-- Settles O19: the one log LF may append to is that of the entry the accumulated word names. -/
theorem lfFrame : Obligations.LfFrame := by
  intro s t e
  rw [exec_eq] at e
  cases e
  refine ⟨s.after_lf_frame, fun i hi => ?_⟩
  obtain hlog | ⟨-, -, hidx, -⟩ := s.log_after_lf i
  · exact ⟨hlog, State.rf_eq_of_log_eq hlog⟩
  · exact absurd hidx hi

theorem State.rs_after_lf {s : State} (he : s.byteEnabled = true) : (s.after .lf).rs = .idle := by
  by_cases hvalid : s.line.nz = true ∧ s.line.ovf = false ∧ s.line.bad = false
  · rw [State.after_lf_of_valid he hvalid, State.endLine_rs]
  · rw [State.after_lf_of_malformed he hvalid, State.endLine_rs]

/-- Settles O20: a byte other than LF enters the line, LF ends it. -/
theorem parserTransitions : Obligations.ParserTransitions := by
  intro b s t hs e
  rw [exec_eq] at e
  cases e
  have he : s.byteEnabled = true := s.byteEnabled_iff.mpr hs
  constructor
  · intro hb
    rw [State.after_decodeByte hb he, State.inLineWith_rs]
  · rintro rfl
    exact State.rs_after_lf he

/-! ### The bytes of a line (R78, R79, R87) -/

/-- The byte steps over a line without its LF, from where they are enabled: the line state folds over the bytes. -/
theorem feed_eq {s : State} {line : List Byte} (hlf : 0x0A#8 ∉ line) (he : s.byteEnabled = true) :
    ∃ rs, feed line s = .next { s with rs := rs, line := line.foldl Line.byte s.line } := by
  induction line generalizing s with
  | nil => exact ⟨s.rs, rfl⟩
  | cons b line ih =>
    obtain ⟨hb, hlf⟩ := not_or.mp (mt List.mem_cons.mpr hlf)
    have hin : (s.inLineWith (s.line.byte b)).byteEnabled = true := (State.byteEnabled_iff _).mpr (.inr rfl)
    obtain ⟨rs, hrun⟩ := ih hlf hin
    refine ⟨rs, ?_⟩
    rw [feed, exec_eq, State.after_decodeByte (Ne.symm hb) he]
    exact hrun

/-- From a line start the bytes of a line leave the line state that judges them. -/
theorem State.atLineStart.feed {s : State} {line : List Byte} (h : s.atLineStart) (hlf : 0x0A#8 ∉ line) :
    ∃ t, Machine.feed line s = .next t ∧ t.line.Judges line := by
  obtain ⟨rs, hrun⟩ := feed_eq hlf h.byteEnabled
  refine ⟨_, hrun, ?_⟩
  rw [h.2.2]
  exact Line.judges_foldl line

/-- A line spells a word exactly when its body is not empty, all hex, and of a value a word can hold (R53). -/
theorem exists_decodeLine_eq_frame_iff (line : List Byte) :
    (∃ w, decodeLine line = .frame w) ↔
      lineBody line ≠ [] ∧ (∀ b ∈ lineBody line, (hexval b).isSome = true) ∧ bodyValue (lineBody line) ≤ 0xFFFF := by
  simp only [decodeLine_eq_frame_iff]
  constructor
  · rintro ⟨w, hne, hhex, hval⟩
    have hw := w.isLt
    exact ⟨hne, hhex, by omega⟩
  · rintro ⟨hne, hhex, hval⟩
    exact ⟨BitVec.ofNat 16 (bodyValue (lineBody line)), hne, hhex, by rw [BitVec.toNat_ofNat]; omega⟩

/-- The condition of R77 is that the line state's verdict is a frame. -/
theorem Line.exists_verdict_eq_frame_iff (l : Line) :
    (∃ w, l.verdict = .frame w) ↔ l.nz = true ∧ l.ovf = false ∧ l.bad = false := by
  simp only [Line.verdict_eq_frame_iff, exists_and_left, exists_eq, and_true]

/-- Settles O21: the verdict of the line state after the bytes is the whole-line decode, a frame of one exactly where of the
other. -/
theorem parserAgreesWithLineRule : Obligations.ParserAgreesWithLineRule := by
  intro line s hlf h
  obtain ⟨t, hrun, hjudges⟩ := h.feed hlf
  refine ⟨t, hrun, ?_, fun hvalid => ?_, hjudges.verdict⟩
  · rw [← Line.exists_verdict_eq_frame_iff, hjudges.verdict, exists_decodeLine_eq_frame_iff]
  · have hframe : decodeLine line = .frame t.line.acc :=
      hjudges.verdict.symm.trans (Line.verdict_eq_frame_iff.mpr ⟨hvalid, rfl⟩)
    obtain ⟨-, -, hval⟩ := (decodeLine_eq_frame_iff line t.line.acc).mp hframe
    exact hval.symm

/-- Settles O22: the digits are all of the line, so the line state judges their whole value. -/
theorem accumulatorArithmetic : Obligations.AccumulatorArithmetic := by
  intro digits s hhex h
  have hlf : 0x0A#8 ∉ digits := fun hmem => nomatch hhex _ hmem
  obtain ⟨t, hrun, hjudges⟩ := h.feed hlf
  have hdigits : hexDigits digits = digits := List.filter_eq_self.mpr hhex
  have hacc := hjudges.acc
  have hovf := hjudges.ovf
  rw [hdigits] at hacc hovf
  exact ⟨t, hrun, hacc, hovf⟩

/-- Settles O26: the steps over a line and its LF, from a line start. -/
theorem oneLine : Obligations.OneLine := fun _ _ _ hlf h hm hs => stepTimes_line hlf h hm hs

/-! ### Ports and events while the engine parses (R95, R96, R105) -/

theorem State.rs_after_decodePort (p : PortOp) (s : State) : (s.after (decodePort p)).rs = s.rs := by
  rw [State.after_decodePort]

theorem State.cp_after_decodePort (p : PortOp) (s : State) : (s.after (decodePort p)).cp = s.cp := by
  rw [State.after_decodePort]

theorem State.after_start_of_parsing {s : State} (h : s.rs.parsing = true) : s.after .start = s := if_pos h

theorem State.after_cancel_of_parsing {s : State} (h : s.rs.parsing = true) :
    s.after .cancel = { s with cp := true } := if_pos h

theorem State.after_transportFault_of_parsing {s : State} (h : s.rs.parsing = true) :
    s.after .transportFault = s.raise .transportFault := if_pos h

theorem State.after_cancelTake_of_enabled {s : State} (h : s.takeEnabled = true) :
    s.after .cancelTake = { s with rs := .stopped, cp := false } := if_pos h

/-- No instruction consumes a byte: a byte is taken where the instruction is fetched (R71). -/
theorem State.stream_after (i : Instr) (s : State) : (s.after i).stream = s.stream := by
  cases i with
  | lf => rw [State.after_lf_frame]
  | snapshot r => exact State.storeSnap_stream r _ _
  | _ => simp [State.after, apply_ite State.stream]

/-! ### The engine's turn (R71, R72, R97, R124, R128) -/

/-- Settles O45: the engine's fetch, in the state with its move taken. -/
theorem stepRunsByte : Obligations.StepRunsByte := by
  intro s ms b bs hm hs
  have hf := State.fetch_engine hm
  refine ⟨fun h => ?_, fun h => ?_, fun h => ?_⟩
  · have he : ({ s with moves := ms } : State).byteEnabled = true := (State.byteEnabled_iff _).mpr h
    exact step_of_fetch_run (hf.trans (State.engineFetch_byte he hs))
  · have hne : s.rs ≠ .idle := by obtain h | h := h <;> rw [h] <;> nofun
    have ht : ({ s with moves := ms } : State).takeEnabled = false :=
      Bool.eq_false_iff.mpr fun ht => hne ((State.takeEnabled_iff _).mp ht).1
    have he : ({ s with moves := ms } : State).byteEnabled = false :=
      (State.byteEnabled_eq_false_iff _).mpr (h.imp_right .inl)
    exact step_of_fetch_hold (hf.trans (State.engineFetch_hold ht (.inl he)))
  · have ht : ({ s with moves := ms } : State).takeEnabled = true := (State.takeEnabled_iff _).mpr h
    rw [step_of_fetch_run (hf.trans (State.engineFetch_take ht)), exec_eq, State.after_cancelTake_of_enabled ht]

/-- Settles O53: the engine can neither hold nor take a byte, and no other agent's step but the two named ends the request
or leaves the line start. -/
theorem cancelTakePersists : Obligations.CancelTakePersists := by
  intro s t hs e
  rw [step_eq] at e
  cases e
  have ht : s.takeEnabled = true := s.takeEnabled_iff.mpr hs
  obtain ⟨hrs, hcp⟩ := hs
  have hp : (s.withInputs s.moves.tail s.stream).rs.parsing = true := congrArg RunState.parsing hrs
  obtain ⟨-, hno, -⟩ | ⟨b, bs, -, he, -⟩ | ⟨hturn, -, e⟩ | ⟨b, -, e⟩ | ⟨p, -, e⟩ | ⟨ev, hm, e⟩ := s.afterStep_cases
  · exact absurd (ht.symm.trans hno) nofun
  · exact absurd (ht.symm.trans (State.takeEnabled_of_byteEnabled he)) nofun
  · rw [e, State.after_cancelTake_of_enabled (s := s.withInputs s.moves.tail s.stream) ht]
    exact .inr (.inl ⟨hturn, rfl, rfl, rfl, rfl⟩)
  · rw [e]
    exact .inl ⟨hrs, hcp, List.prefix_append _ _⟩
  · rw [e, State.rs_after_decodePort, State.cp_after_decodePort, State.stream_after]
    exact .inl ⟨hrs, hcp, List.prefix_refl _⟩
  · rw [e]
    cases ev with
    | start =>
      rw [decodeEvent, State.after_start_of_parsing hp]
      exact .inl ⟨hrs, hcp, List.prefix_refl _⟩
    | cancel =>
      rw [decodeEvent, State.after_cancel_of_parsing hp]
      exact .inl ⟨hrs, rfl, List.prefix_refl _⟩
    | transportFault => exact .inr (.inr (.inl hm))
    | reset => exact .inr (.inr (.inr hm))

/-- Settles O56: with no byte the engine holds, and of the other agents' steps only the two named leave a line. -/
theorem heldInLine : Obligations.HeldInLine := by
  intro s t hrs hs e
  rw [step_eq] at e
  cases e
  have hp : (s.withInputs s.moves.tail s.stream).rs.parsing = true := congrArg RunState.parsing hrs
  obtain ⟨-, -, -, e⟩ | ⟨b, bs, -, -, hb, -⟩ | ⟨-, ht, -⟩ | ⟨b, -, e⟩ | ⟨p, -, e⟩ | ⟨ev, hm, e⟩ := s.afterStep_cases
  · rw [e]
    exact .inl hrs
  · exact absurd (hs.symm.trans hb) nofun
  · exact absurd (hrs.symm.trans (s.takeEnabled_iff.mp ht).1) nofun
  · rw [e]
    exact .inl hrs
  · rw [e, State.rs_after_decodePort]
    exact .inl hrs
  · rw [e]
    cases ev with
    | start =>
      rw [decodeEvent, State.after_start_of_parsing hp]
      exact .inl hrs
    | cancel =>
      rw [decodeEvent, State.after_cancel_of_parsing hp]
      exact .inl hrs
    | transportFault =>
      rw [decodeEvent, State.after_transportFault_of_parsing hp]
      exact .inr (.inl ⟨hm, rfl⟩)
    | reset => exact .inr (.inr ⟨hm, rfl⟩)

theorem State.quiescent_iff (s : State) :
    s.quiescent = true ↔ s.takeEnabled = false ∧ (s.byteEnabled = false ∨ s.stream = []) := by
  unfold State.quiescent State.byteEnabled State.takeEnabled
  cases s.rs <;> cases s.cp <;> simp [RunState.parsing]

/-- With no move listed, the machine stays where it is exactly when the engine holds: a cancel taken leaves IDLE, and a byte
taken leaves fewer bytes offered. -/
theorem State.afterStep_eq_self_iff {s : State} (hm : s.moves = []) : s.afterStep = s ↔ s.quiescent = true := by
  rw [State.quiescent_iff]
  obtain ⟨ht, -⟩ | ⟨b, bs, hb, hs, -⟩ | ⟨ht, hh, -⟩ := s.engineFetch_cases
  · have hne : s.afterStep ≠ s := fun h => by
      rw [State.afterStep_take hm ht, State.after_cancelTake_of_enabled ht] at h
      exact absurd ((congrArg State.rs h).trans (s.takeEnabled_iff.mp ht).1) nofun
    simp [hne, ht]
  · have hne : s.afterStep ≠ s := fun h => by
      rw [State.afterStep_byte hm hb hs] at h
      have hlen := congrArg State.stream h
      rw [State.stream_after, hs] at hlen
      exact List.cons_ne_self b bs hlen.symm
    simp [hne, hb, hs]
  · exact iff_of_true (State.afterStep_hold hm ht hh) ⟨ht, hh⟩

/-- Settles O57: the engine holds exactly where neither of its steps is enabled. -/
theorem quiescence : Obligations.Quiescence := by
  intro s
  constructor
  · rw [State.quiescent_iff, ← Bool.not_eq_true, State.takeEnabled_iff, State.byteEnabled_eq_false_iff]
    cases s.rs <;> cases s.cp <;> simp
  · intro hm
    rw [step_eq, Host.Outcome.next.injEq, State.afterStep_eq_self_iff hm]

/-! ### RESET (R118) -/

/-- Settles O41: RESET writes the five fields named. -/
theorem resetFrame : Obligations.ResetFrame := by
  intro s t e
  rw [exec_eq] at e
  cases e
  rfl

end Sys2Proof.Machine
end

section
/-!
PROOFS. The frame instructions (R84, R85): the mask that selects each one's encoding, and the one write they share.
-/

namespace Sys2Proof

/-! ### The encodings (R84, R85) -/

theorem and_bit12 (w : Word) : w &&& 0x1000#16 = if w.getLsbD 12 then 0x1000#16 else 0#16 := BitVec.and_twoPow w 12

theorem frameBank_of_and_eq_bit12 {w : Word} (h : w &&& 0x1000#16 = 0x1000#16) : frameBank w = .a := by
  rw [frameBank_eq_a_iff]
  by_contra hbit
  rw [and_bit12, if_neg hbit] at h
  exact absurd h (by decide)

theorem frameBank_of_and_eq_zero {w : Word} (h : w &&& 0x1000#16 = 0#16) : frameBank w = .b := by
  rw [frameBank_eq_b_iff, ← Bool.not_eq_true]
  intro hbit
  rw [and_bit12, if_pos hbit] at h
  exact absurd h (by decide)

namespace Machine

/-! ### The write (R18, R88) -/

/-- All that one write does: its entry's value, its entry's log, and nothing outside the register file. -/
theorem State.writeEntry_effect (i : Index) (v : Byte) (s : State) :
    (∀ j, (s.writeEntry i v).rf j = if j = i then v else s.rf j) ∧
    (∀ j, (s.writeEntry i v).log j = if j = i then s.log j ++ [v] else s.log j) ∧
    s.writeEntry i v = { s with writes := (s.writeEntry i v).writes } := by
  refine ⟨fun j => s.rf_writeEntry i j v, fun j => ?_, rfl⟩
  rw [State.log_writeEntry]
  split
  next h => rw [h]
  next => rfl

/-- Settles O23: bit 12 set is bank A, whose row writes entry `{1, a}`. -/
theorem writeBankA : Obligations.WriteBankA :=
  ⟨fun _ h => decodeFrame_of_bank_a (frameBank_of_and_eq_bit12 h), fun a v s => ⟨_, rfl, s.writeEntry_effect (idx .a a) v⟩⟩

/-- Settles O24: bit 12 clear is bank B, whose row writes entry `{0, a}`. -/
theorem writeBankB : Obligations.WriteBankB :=
  ⟨fun _ h => decodeFrame_of_bank_b (frameBank_of_and_eq_zero h), fun a v s => ⟨_, rfl, s.writeEntry_effect (idx .b a) v⟩⟩

end Machine
end Sys2Proof
end

section
/-!
PROOFS. The host's control events and the engine's cancel-take (R95, R96, R97, R100): what each leaves where it has no
effect, the run state each leaves, and that a fair engine takes a pending cancel.
-/

namespace Sys2Proof.Machine

/-! ### Control events where they are ignored or not enabled (R95, R96, R97, R105) -/

theorem RunState.not_parsing_iff (r : RunState) : ¬r.parsing = true ↔ r = .stopped ∨ r = .faulted := by
  cases r <;> decide

section
variable {s : State}

theorem State.after_start_of_not_parsing (h : ¬s.rs.parsing = true) : s.after .start = s.resume := if_neg h

theorem State.after_cancel_of_not_parsing (h : ¬s.rs.parsing = true) : s.after .cancel = s := if_neg h

theorem State.after_cancelTake_of_not_enabled (h : ¬s.takeEnabled = true) : s.after .cancelTake = s := if_neg h

end

/-- Settles O36: START resumes exactly where the engine does not parse. -/
theorem startEvent : Obligations.StartEvent := by
  intro s
  rw [exec_eq, ← RunState.not_parsing_iff, ← RunState.parsing_iff]
  exact ⟨fun h => congrArg _ (State.after_start_of_not_parsing h), fun h => congrArg _ (State.after_start_of_parsing h)⟩

/-- Settles O37: CANCEL is recorded exactly where the engine parses. -/
theorem cancelEvent : Obligations.CancelEvent := by
  intro s
  rw [exec_eq, ← RunState.not_parsing_iff, ← RunState.parsing_iff]
  exact ⟨fun h => congrArg _ (State.after_cancel_of_parsing h), fun h => congrArg _ (State.after_cancel_of_not_parsing h)⟩

/-- Settles O38: CANCEL_TAKE's enabling condition is the one written out. -/
theorem cancelTakeStep : Obligations.CancelTakeStep := by
  intro s
  rw [exec_eq, ← State.takeEnabled_iff]
  exact ⟨fun h => congrArg _ (State.after_cancelTake_of_enabled h),
    fun h => congrArg _ (State.after_cancelTake_of_not_enabled h)⟩

/-! ### The run state after a control event (R100) -/

theorem exec_eq_next_iff {i : Instr} {s t : State} : exec i s = .next t ↔ s.after i = t := by
  rw [exec_eq, Host.Outcome.next.injEq]

theorem State.rs_after_start (s : State) : (s.after .start).rs = if s.rs.parsing then s.rs else .idle :=
  apply_ite State.rs _ _ _

theorem State.rs_after_cancel (s : State) : (s.after .cancel).rs = s.rs := by
  simp [State.after, apply_ite State.rs]

theorem State.rs_after_cancelTake (s : State) :
    (s.after .cancelTake).rs = if s.takeEnabled then .stopped else s.rs := apply_ite State.rs _ _ _

theorem State.rs_after_transportFault (s : State) :
    (s.after .transportFault).rs = if s.rs.parsing then .faulted else s.rs := apply_ite State.rs _ _ _

/-- Settles O43: each event's row of R100's table, cell by cell. -/
theorem controlTransitions : Obligations.ControlTransitions := by
  intro s t
  simp only [exec_eq_next_iff]
  refine ⟨?_, ?_, ?_, ?_, ?_⟩ <;> rintro rfl
  · rw [State.rs_after_start]
    cases s.rs <;> rfl
  · refine ⟨s.rs_after_cancel, fun h => ?_⟩
    rw [State.after_cancel_of_parsing (s.rs.parsing_iff.mpr h)]
  · intro hcp
    rw [State.rs_after_cancelTake, State.takeEnabled, hcp]
    cases s.rs <;> rfl
  · rw [State.rs_after_transportFault]
    cases s.rs <;> rfl
  · rfl

/-! ### A pending cancel along a run (R97) -/

theorem State.mover_eq_engine_iff (s : State) :
    s.mover = .engine ↔ s.moves = [] ∨ s.moves.head? = some .engine := by
  unfold State.mover
  cases s.moves with
  | nil => simp
  | cons m ms =>
    cases m with
    | offer b => simp [Move.agent]
    | engine => simp [Move.agent]
    | port p => cases p <;> simp [Move.agent]
    | event e => cases e <;> simp [Move.agent]

/-- On its turn the engine takes an enabled cancel (R71, R97). -/
theorem State.afterStep_take_of_turn {s : State} (hturn : s.mover = .engine) (ht : s.takeEnabled = true) :
    s.afterStep = { s with moves := s.moves.tail, rs := .stopped, cp := false } := by
  have hm : (s.moves = [] ∧ s.moves.tail = []) ∨ s.moves = .engine :: s.moves.tail := by
    obtain h | h := s.mover_eq_engine_iff.mp hturn
    · exact .inl ⟨h, by rw [h]; rfl⟩
    · exact .inr (List.eq_cons_of_mem_head? h)
  have ht' : ({ s with moves := s.moves.tail } : State).takeEnabled = true := ht
  rw [State.afterStep, State.fetch_engine hm, State.engineFetch_take ht']
  exact State.after_cancelTake_of_enabled ht'

/-- Where no byte step is enabled, no step but RESET writes the register file (R15, R71). -/
theorem State.writes_afterStep_of_not_byteEnabled {s : State} (hb : s.byteEnabled = false)
    (hr : s.moves.head? ≠ some (.event .reset)) : s.afterStep.writes = s.writes := by
  obtain ⟨-, -, -, e⟩ | ⟨b, bs, -, he, -⟩ | ⟨-, -, e⟩ | ⟨b, -, e⟩ | ⟨p, -, e⟩ | ⟨ev, hm, e⟩ := s.afterStep_cases
  · rw [e]
    rfl
  · exact absurd (hb.symm.trans he) nofun
  · rw [e]
    exact State.writes_after rfl _
  · rw [e]
    rfl
  · rw [e]
    exact State.writes_after (mayWrite_decodePort p) _
  · have hev : ev ≠ .reset := by
      rintro rfl
      exact hr hm
    rw [e]
    exact State.writes_after ((mayWrite_decodeEvent ev).trans (decide_eq_false hev)) _

section
variable {run : Nat → State}

/-- The moves the agents list after a step are no part of the block. -/
theorem IsRun.block_succ (hrun : IsRun run) (n : Nat) :
    (run (n + 1)).rs = (run n).afterStep.rs ∧ (run (n + 1)).cp = (run n).afterStep.cp ∧
      (run (n + 1)).writes = (run n).afterStep.writes := by
  obtain ⟨t, more, hstep, hnext⟩ := hrun n
  rw [step_eq] at hstep
  cases hstep
  rw [hnext]
  exact ⟨rfl, rfl, rfl⟩

/-- A cancel pending at a line start is taken by the time the engine has had a turn, `d` steps later, and nothing is
written until then: every step before that turn keeps it pending, or takes it. -/
theorem IsRun.exists_cancel_taken (hrun : IsRun run) {n d : Nat} (hs : (run n).rs = .idle ∧ (run n).cp = true)
    (hquiet : ∀ m, n ≤ m → (run m).moves.head? ≠ some (.event .transportFault) ∧
      (run m).moves.head? ≠ some (.event .reset))
    (hturn : (run (n + d)).mover = .engine) :
    ∃ m, n < m ∧ (run m).rs = .stopped ∧ (run m).cp = false ∧ (run m).writes = (run n).writes := by
  induction d generalizing n with
  | zero =>
    rw [Nat.add_zero] at hturn
    obtain ⟨hrs, hcp, hw⟩ := hrun.block_succ n
    rw [State.afterStep_take_of_turn hturn ((run n).takeEnabled_iff.mpr hs)] at hrs hcp hw
    exact ⟨n + 1, n.lt_succ_self, hrs, hcp, hw⟩
  | succ d ih =>
    obtain ⟨hrs, hcp, hw⟩ := hrun.block_succ n
    obtain ⟨hfault, hreset⟩ := hquiet n le_rfl
    obtain ⟨hidle, hpending, -⟩ | ⟨-, hstopped, htaken, -, hkept⟩ | h | h := cancelTakePersists _ _ hs (step_eq (run n))
    · have hkept : (run n).afterStep.writes = (run n).writes :=
        State.writes_afterStep_of_not_byteEnabled ((State.byteEnabled_eq_false_iff _).mpr (.inr (.inr hs))) hreset
      obtain ⟨m, hm, hstopped, htaken, hwm⟩ := ih (n := n + 1) ⟨hrs.trans hidle, hcp.trans hpending⟩
        (fun m hm => hquiet m (Nat.le_of_succ_le hm)) (by rwa [Nat.add_right_comm])
      exact ⟨m, Nat.lt_of_succ_lt hm, hstopped, htaken, hwm.trans (hw.trans hkept)⟩
    · exact ⟨n + 1, n.lt_succ_self, hrs.trans hstopped, hcp.trans htaken, hw.trans hkept⟩
    · exact absurd h hfault
    · exact absurd h hreset

end

/-- Settles O54: fairness gives the engine a turn at or after the point, and the cancel is taken by then. -/
theorem cancelEventuallyTaken : Obligations.CancelEventuallyTaken := by
  intro run n hrun hfair hs hquiet
  obtain ⟨m, hm, hturn⟩ := hfair n
  obtain ⟨d, rfl⟩ := Nat.exists_eq_add_of_le hm
  exact hrun.exists_cancel_taken hs hquiet hturn

end Sys2Proof.Machine
end

section
/-!
PROOFS. Faults, the agents' rights and the clocked cycle (R105, R107, R108, R111, R113, R116): what ends a session and what
leaves FAULTED, which agent's step may change what, and that a cycle is one of the interleavings.
-/

namespace Sys2Proof.Machine

/-! ### TRANSPORT_FAULT and the way out of FAULTED (R105, R107, R111) -/

theorem State.after_transportFault_of_not_parsing {s : State} (h : ¬s.rs.parsing = true) :
    s.after .transportFault = s := if_neg h

/-- Settles O39: TRANSPORT_FAULT is raised exactly where the engine parses. -/
theorem transportFaultEvent : Obligations.TransportFaultEvent := by
  intro s
  rw [exec_eq, ← RunState.not_parsing_iff, ← RunState.parsing_iff]
  exact ⟨fun h => congrArg _ (State.after_transportFault_of_parsing h),
    fun h => congrArg _ (State.after_transportFault_of_not_parsing h)⟩

/-- Settles O52: the engine can only hold, and of the other agents' steps only the two named reach a machine that does not
parse. -/
theorem faultedLeftBy : Obligations.FaultedLeftBy := by
  intro s t hrs e
  rw [step_eq] at e
  cases e
  have hp : ¬(s.withInputs s.moves.tail s.stream).rs.parsing = true := s.rs.not_parsing_iff.mpr (.inr hrs)
  have hb : s.byteEnabled = false := s.byteEnabled_eq_false_iff.mpr (.inr (.inl hrs))
  obtain ⟨-, -, -, e⟩ | ⟨b, bs, -, he, -⟩ | ⟨-, ht, -⟩ | ⟨b, -, e⟩ | ⟨p, -, e⟩ | ⟨ev, hm, e⟩ := s.afterStep_cases
  · rw [e]
    exact .inl hrs
  · exact absurd (hb.symm.trans he) nofun
  · exact absurd (hrs.symm.trans (s.takeEnabled_iff.mp ht).1) nofun
  · rw [e]
    exact .inl hrs
  · rw [e, State.rs_after_decodePort]
    exact .inl hrs
  · rw [e]
    cases ev with
    | start =>
      rw [decodeEvent, State.after_start_of_not_parsing hp]
      exact .inr (.inl ⟨hm, rfl⟩)
    | cancel =>
      rw [decodeEvent, State.after_cancel_of_not_parsing hp]
      exact .inl hrs
    | transportFault =>
      rw [decodeEvent, State.after_transportFault_of_not_parsing hp]
      exact .inl hrs
    | reset => exact .inr (.inr ⟨hm, rfl⟩)

/-! ### What each agent's step may change (R113, R116) -/

theorem Move.agent_event (e : EventIn) : (Move.event e).agent = .host ∨ (Move.event e).agent = .transport := by
  cases e with
  | transportFault => exact .inr rfl
  | _ => exact .inl rfl

theorem State.mover_of_head? {s : State} {m : Move} (h : s.moves.head? = some m) : s.mover = m.agent := by
  rw [State.mover, h]
  rfl

/-- The four ways a step comes about, by the agent that takes it: what the engine does is left open. -/
theorem State.afterStep_by_agent (s : State) :
    s.mover = .engine ∨
    (∃ b, s.mover = .transport ∧ s.afterStep = s.withInputs s.moves.tail (s.stream ++ [b])) ∨
    (∃ p, s.mover = (Move.port p).agent ∧
      s.afterStep = (s.withInputs s.moves.tail s.stream).after (decodePort p)) ∨
    (∃ e, s.mover = (Move.event e).agent ∧
      s.afterStep = (s.withInputs s.moves.tail s.stream).after (decodeEvent e)) := by
  obtain ⟨hturn, -⟩ | ⟨b, bs, hturn, -⟩ | ⟨hturn, -⟩ | ⟨b, hm, e⟩ | ⟨p, hm, e⟩ | ⟨ev, hm, e⟩ := s.afterStep_cases
  · exact .inl (s.mover_eq_engine_iff.mpr hturn)
  · exact .inl (s.mover_eq_engine_iff.mpr hturn)
  · exact .inl (s.mover_eq_engine_iff.mpr hturn)
  · exact .inr (.inl ⟨b, State.mover_of_head? hm, e⟩)
  · exact .inr (.inr (.inl ⟨p, State.mover_of_head? hm, e⟩))
  · exact .inr (.inr (.inr ⟨ev, State.mover_of_head? hm, e⟩))

/-- A log changes in a step of the engine, the only one that runs an LF, or in RESET (R113). -/
theorem State.log_afterStep (s : State) (i : Index) :
    s.afterStep.log i = s.log i ∨ s.mover = .engine ∨ s.moves.head? = some (.event .reset) := by
  obtain h | ⟨bs, -, hturn, -⟩ | ⟨hm, -⟩ := onlyFramesWrite s s.afterStep i (step_eq s)
  · exact .inl h
  · exact .inr (.inl (s.mover_eq_engine_iff.mpr hturn))
  · exact .inr (.inr hm)

/-- The inputs are no part of the watermarks, and an instruction of no reader leaves them, if it is not RESET (R19). -/
theorem State.seenAt_after_of_no_reader {i : Instr} (hg : ∀ r j, i ≠ .get r j) (hs : ∀ r, i ≠ .snapshot r)
    (hr : i ≠ .reset) (ms : List Move) (bs : List Byte) (s : State) (r : Nat) (j : Index) :
    ((s.withInputs ms bs).after i).seenAt r j = s.seenAt r j :=
  State.seenAt_congr (State.seen_after hg hs hr (s.withInputs ms bs)) r j

/-- A watermark changes in a port operation of its own reader, or in RESET (R116). -/
theorem State.seenAt_afterStep (s : State) (r : Nat) (i : Index) :
    s.afterStep.seenAt r i = s.seenAt r i ∨ s.mover = .reader r ∨ s.moves.head? = some (.event .reset) := by
  obtain ⟨-, -, -, e⟩ | ⟨b, bs, -, -, -, e⟩ | ⟨-, -, e⟩ | ⟨b, -, e⟩ | ⟨p, hm, e⟩ | ⟨ev, hm, e⟩ := s.afterStep_cases <;>
    rw [e]
  · exact .inl rfl
  · refine .inl (State.seenAt_after_of_no_reader ?_ ?_ ?_ _ _ s r i)
    · exact fun r' j => decodeByte_ne b (.get r' j) rfl nofun nofun nofun
    · exact fun r' => decodeByte_ne b (.snapshot r') rfl nofun nofun nofun
    · exact decodeByte_ne b .reset rfl nofun nofun nofun
  · exact .inl (State.seenAt_after_of_no_reader (by nofun) (by nofun) (by nofun) _ _ s r i)
  · exact .inl rfl
  · by_cases hp : (Move.port p).agent = .reader r
    · exact .inr (.inl ((State.mover_of_head? hm).trans hp))
    · refine .inl (State.seenAt_after_decodePort ?_ ?_ (s.withInputs s.moves.tail s.stream) i)
      · rintro j rfl
        exact hp rfl
      · rintro rfl
        exact hp rfl
  · cases ev with
    | reset => exact .inr (.inr hm)
    | _ => exact .inl (State.seenAt_after_of_no_reader (by nofun) (by nofun) (by nofun) _ _ s r i)

/-- The bytes offered change where the engine takes one or the transport offers one (R113). -/
theorem State.stream_afterStep (s : State) :
    s.afterStep.stream = s.stream ∨ s.mover = .engine ∨ s.mover = .transport := by
  obtain h | ⟨b, h, -⟩ | ⟨p, -, e⟩ | ⟨ev, -, e⟩ := s.afterStep_by_agent
  · exact .inr (.inl h)
  · exact .inr (.inr h)
  · exact .inl (by rw [e, State.stream_after]; rfl)
  · exact .inl (by rw [e, State.stream_after]; rfl)

/-- The run state and the cancel state change in no step of a reader (R113). -/
theorem State.rs_cp_afterStep (s : State) :
    (s.afterStep.rs = s.rs ∧ s.afterStep.cp = s.cp) ∨ s.mover = .engine ∨ s.mover = .host ∨ s.mover = .transport := by
  obtain h | ⟨b, h, -⟩ | ⟨p, -, e⟩ | ⟨ev, h, -⟩ := s.afterStep_by_agent
  · exact .inr (.inl h)
  · exact .inr (.inr (.inr h))
  · exact .inl (by rw [e, State.rs_after_decodePort, State.cp_after_decodePort]; exact ⟨rfl, rfl⟩)
  · exact .inr (.inr ((Move.agent_event ev).imp h.trans h.trans))

/-- Settles O55: field by field, what is not kept is the right of the agent that moves. -/
theorem agentRights : Obligations.AgentRights := by
  intro s t e
  rw [step_eq] at e
  cases e
  refine ⟨fun i => (s.log_afterStep i).resolve_left, fun r i => (s.seenAt_afterStep r i).resolve_left,
    s.stream_afterStep.resolve_left, fun h => s.rs_cp_afterStep.resolve_left fun ⟨hrs, hcp⟩ => ?_⟩
  exact h.elim (· hrs) (· hcp)

/-! ### A clocked cycle (R108) -/

/-- The state with the agents' moves to come replaced. -/
def State.withMoves (ms : List Move) (s : State) : State := { s with moves := ms }

/-- What an event does is the same whatever moves are to come, and it leaves them. -/
theorem State.after_decodeEvent_withMoves (e : EventIn) (ms : List Move) (s : State) :
    (s.withMoves ms).after (decodeEvent e) = (s.after (decodeEvent e)).withMoves ms := by
  cases e with
  | reset => rfl
  | _ =>
    dsimp only [decodeEvent, State.after]
    rw [apply_ite (State.withMoves ms)]
    rfl

/-- The moves `xs`, taken one after another with any moves behind them, have the outcome `f` has on the state with only
those behind. -/
def Realises (xs : List Move) (f : State → Host.Outcome State Fault Refusal) : Prop :=
  ∀ (ms : List Move) (s : State), stepTimes xs.length (s.withMoves (xs ++ ms)) = f (s.withMoves ms)

theorem byteStage_of_enabled {s : State} {b : Byte} {bs : List Byte} (hb : s.byteEnabled = true)
    (hs : s.stream = b :: bs) : byteStage s = exec (decodeByte b) { s with stream := bs } := by
  rw [byteStage, hs]
  exact if_pos hb

theorem byteStage_of_not_enabled {s : State} (h : s.byteEnabled = false ∨ s.stream = []) : byteStage s = .next s := by
  unfold byteStage
  cases hs : s.stream with
  | nil => rfl
  | cons b bs =>
    rw [hs] at h
    obtain hb | hnil := h
    · exact if_neg (Bool.eq_false_iff.mp hb)
    · cases hnil

/-- One step of the engine is the cycle's last two stages: a cancel taken stops the engine, which then takes no byte; where
none is taken, the byte offered is, if that is enabled (R71, R97). -/
theorem realises_engine : Realises [.engine] fun s => andThen (exec .cancelTake s) byteStage := by
  intro ms s
  have hf : (s.withMoves (.engine :: ms)).fetch = (s.withMoves ms).engineFetch := State.fetch_engine (.inr rfl)
  change andThen (step (s.withMoves (.engine :: ms))) .next = andThen (exec .cancelTake (s.withMoves ms)) byteStage
  rw [exec_eq, andThen]
  obtain ⟨ht, e⟩ | ⟨b, bs, hb, hs, e⟩ | ⟨ht, hh, e⟩ := (s.withMoves ms).engineFetch_cases
  · rw [step_of_fetch_run (hf.trans e), exec_eq, State.after_cancelTake_of_enabled ht]
    exact (byteStage_of_not_enabled (.inl rfl)).symm
  · rw [step_of_fetch_run (hf.trans e), exec_eq,
      State.after_cancelTake_of_not_enabled (Bool.eq_false_iff.mp (State.takeEnabled_of_byteEnabled hb)),
      byteStage_of_enabled hb hs, exec_eq, andThen]
  · rw [step_of_fetch_hold (hf.trans e), State.after_cancelTake_of_not_enabled (Bool.eq_false_iff.mp ht),
      byteStage_of_not_enabled hh, andThen]

/-- An event asserted before moves that realise `f` is its stage of the cycle before `f`. -/
theorem Realises.event {xs : List Move} {f : State → Host.Outcome State Fault Refusal} (h : Realises xs f)
    (asserted : Bool) (e : EventIn) :
    Realises ((if asserted then [.event e] else []) ++ xs) fun s => andThen (eventStage asserted e s) f := by
  intro ms s
  cases asserted with
  | false => exact h ms s
  | true =>
    have hstep : step (s.withMoves (.event e :: (xs ++ ms))) = .next ((s.after (decodeEvent e)).withMoves (xs ++ ms)) := by
      rw [← State.after_decodeEvent_withMoves, ← exec_eq]
      exact step_of_fetch_run (State.fetch_event rfl)
    have hstage : eventStage true e (s.withMoves ms) = .next ((s.after (decodeEvent e)).withMoves ms) := by
      rw [← State.after_decodeEvent_withMoves]
      exact exec_eq _ _
    dsimp only
    rw [hstage]
    exact (congrArg (andThen · (stepTimes xs.length)) hstep).trans (h ms (s.after (decodeEvent e)))

/-- The moves of a cycle realise it: the engine's step is its last two stages, and each event before it a stage of its
own. -/
theorem Cycle.realises (c : Cycle) : Realises c.moves (clockedCycle c) := by
  simp only [Cycle.moves, List.append_assoc]
  exact (((realises_engine.event c.cancel .cancel).event c.start .start).event c.fault .transportFault).event
    c.reset .reset

/-- Settles O58: the moves of a cycle are the single steps, and any moves may stand behind them. -/
theorem Clocked.clockedCycle : Obligations.ClockedCycle := fun c s ms => c.realises ms s

end Sys2Proof.Machine
end

section
/-!
PROOFS. RESET brings the block's state to the values after reset (R27, R118).
-/

namespace Sys2Proof.Machine

/-- RESET writes the table of writes that the machine starts with, so every entry is as it starts. -/
@[simp] theorem State.rf_resetBlock (s : State) (i : Index) : s.resetBlock.rf i = 0#8 :=
  (State.rf_congr s.resetBlock_writes i).trans (State.rf_reset i)

@[simp] theorem State.statusWord_resetBlock (s : State) : s.resetBlock.statusWord = 0x00#8 :=
  State.statusWord_congr (s := State.reset) s.resetBlock_rs s.resetBlock_cp

/-- Settles O40: RESET does not look at the run state, and each piece of the block's state after it is a law of
`resetBlock`. -/
theorem resetEvent : Obligations.ResetEvent :=
  fun s => ⟨s.resetBlock, exec_eq .reset s, fun i => ⟨s.rf_resetBlock i, s.log_resetBlock i⟩, s.seenAt_resetBlock,
    s.resetBlock_rs, s.resetBlock_cp, s.resetBlock_line, s.statusWord_resetBlock⟩

end Sys2Proof.Machine
end
